-- ==== Sys2Proof/Word.lean ====
section
/-! DEFINITION. The value types of the engine: bytes, 32-bit words, 16-bit command words and the 64-bit bit count.
Every value is an unsigned bit vector of the width the spec states (00_scope.md R6, 40_word_ops.md R70); bit 0 is the
least significant bit. What is computed with them stands in Sys2Proof/Machine/. -/

namespace Sys2Proof

/-- A byte of the message, of a block or of a response: 8 bits (20_memory.md R30). -/
abbrev Byte := BitVec 8

/-- A word of the chaining value, of the schedule or of a constant table: 32 bits (40_word_ops.md R70). -/
abbrev Word := BitVec 32

/-- A command word: 16 bits (30_encoding.md R50). -/
abbrev CmdWord := BitVec 16

/-- The bit counter's type: exactly 64 bits (10_state.md R13). -/
abbrev Count := BitVec 64

end Sys2Proof
end

