-- ==== Sys2Proof/Config.lean ====
section
/-! DEFINITION. The named parameters of the block with the values this hardware takes (00_scope.md R5). The widths of
that table are the types of Sys2Proof/Word.lean; the latencies T_* are left out with all timing (log 1). The spec leaves
no value of any result open, so there is no free value here. -/

namespace Sys2Proof.Config

/-- `BLOCK`: bytes of a block (00_scope.md R5). -/
@[simp] abbrev blockBytes : Nat := 64

/-- `BLOCK` counted in 32-bit words (00_scope.md R5). -/
@[simp] abbrev blockWords : Nat := 16

/-- `NW`: length of the message schedule (00_scope.md R5). -/
@[simp] abbrev scheduleWords : Nat := 64

/-- `NROUNDS`: rounds of one compression (00_scope.md R5). -/
@[simp] abbrev rounds : Nat := 64

/-- `PADMARK`: the first padding byte (00_scope.md R5). -/
@[simp] abbrev padMark : Byte := 0x80#8

/-- `PADLIM`: offset of the length field in the last block (00_scope.md R5). -/
@[simp] abbrev padLimit : Nat := 56

/-- `LENBYTES`: bytes of the length field (00_scope.md R5). -/
@[simp] abbrev lengthBytes : Nat := 8

/-- The largest value of the `CNTW` = 64 bits of the bit counter (00_scope.md R5, 41_init_update.md R91). -/
@[simp] abbrev countMax : Nat := 2 ^ 64 - 1

/-- `8 * ABSORB_W`: bits added to the counter by one ABSORB (00_scope.md R5, 40_word_ops.md R82). -/
@[simp] abbrev bitsPerAbsorb : Nat := 8

end Sys2Proof.Config
end

