-- ==== Sys2Proof/Syntax.lean ====
section
/-! DEFINITION. The commands of the engine, one constructor for each row of spec/opcode_table.json. -/

namespace Sys2Proof

/-- The four commands of 30_encoding.md R51. The only operand of any command is the message byte of ABSORB (R52). -/
inductive Instr where
  /-- INIT, word 0x0100: start a new message (41_init_update.md R90). -/
  | init
  /-- ABSORB b, word 0x0200 + b: take one message byte (41_init_update.md R91). -/
  | absorb (b : Byte)
  /-- DIGEST, word 0x0300: respond with the binary digest (43_finalize.md R120). -/
  | digest
  /-- DIGESTHEX, word 0x0400: respond with the hexadecimal digest (43_finalize.md R129). -/
  | digesthex
  deriving DecidableEq, Repr

end Sys2Proof
end

