-- ==== Sys2Proof/WellFormed.lean ====
section
/-! DEFINITION. Which command words are legal, and the well-formedness of an instruction.

Every term of `Instr` is a legal command: its one operand is a byte by its type, all 256 values of which are legal
message bytes, and the commands without operand have none that could be wrong (30_encoding.md R52). So the check that
can fail is the check of a command WORD, and that is the one written here, from the list of 30_encoding.md R53 and
independently of the decoder. -/

namespace Sys2Proof

/-- A command word is legal unless its op is 0x00 or at least 0x05, or its op is 0x01, 0x03 or 0x04 and its data is not
0x00 (30_encoding.md R53). -/
def CmdWord.legal (w : CmdWord) : Bool :=
  let op := w.toNat / 256
  let data := w.toNat % 256
  !(op = 0 || op ≥ 5 || ((op = 1 || op = 3 || op = 4) && data ≠ 0))

/-- The well-formedness of an instruction: its operand fits the 8-bit data field (30_encoding.md R50, R52). It holds of
every term, since the operand's type has exactly the width of the field. -/
def Instr.wellFormed : Instr → Bool
  | .init => true
  | .absorb b => b.toNat < 256
  | .digest => true
  | .digesthex => true

end Sys2Proof
end

