-- ==== Sys2Proof/Decode.lean ====
section
/-! DEFINITION. The decoder, total on the 65,536 command words (30_encoding.md R55), the encoder (R51), and the opcode
map itself as rows of a match and a mask (R51, spec/opcode_table.json). -/

namespace Sys2Proof

/-- The field `op = cmd[15:8]` (30_encoding.md R50). -/
def opField (w : CmdWord) : Byte := w.extractLsb' 8 8

/-- The field `data = cmd[7:0]` (30_encoding.md R50); the operand of ABSORB, taken as it is (R52). -/
def dataField (w : CmdWord) : Byte := w.extractLsb' 0 8

/-- A command word made of its two fields (30_encoding.md R50). -/
def packWord (op data : Byte) : CmdWord := op ++ data

/-- `decode` of 30_encoding.md R55; `none` is its outcome ILLEGAL. -/
def decode (w : CmdWord) : Option Instr :=
  if opField w = 0x01#8 ∧ dataField w = 0x00#8 then some .init
  else if opField w = 0x02#8 then some (.absorb (dataField w))
  else if opField w = 0x03#8 ∧ dataField w = 0x00#8 then some .digest
  else if opField w = 0x04#8 ∧ dataField w = 0x00#8 then some .digesthex
  else none

/-- The word of a command (30_encoding.md R51, R57). -/
def encode : Instr → CmdWord
  | .init => packWord 0x01#8 0x00#8
  | .absorb b => packWord 0x02#8 b
  | .digest => packWord 0x03#8 0x00#8
  | .digesthex => packWord 0x04#8 0x00#8

/-- A row of the opcode map: a word `w` is the command of the row when `w & mask = pattern` (30_encoding.md R51; the
spec's column `match` is `pattern` here). -/
structure OpcodeRow where
  mnemonic : String
  pattern : CmdWord
  mask : CmdWord
  deriving DecidableEq, Repr

/-- The word is a word of the row (30_encoding.md R51). -/
def OpcodeRow.holds (r : OpcodeRow) (w : CmdWord) : Bool := w &&& r.mask = r.pattern

/-- The mnemonic of a command (30_encoding.md R51, R57). -/
def mnemonicOf : Instr → String
  | .init => "INIT"
  | .absorb _ => "ABSORB"
  | .digest => "DIGEST"
  | .digesthex => "DIGESTHEX"

/-- The opcode map of 30_encoding.md R51. -/
def opcodeMap : List OpcodeRow :=
  [⟨"INIT", 0x0100#16, 0xFFFF#16⟩, ⟨"ABSORB", 0x0200#16, 0xFF00#16⟩,
   ⟨"DIGEST", 0x0300#16, 0xFFFF#16⟩, ⟨"DIGESTHEX", 0x0400#16, 0xFFFF#16⟩]

/-- The command word of a table row's bits: the low `nbits` bits of `w`, zeros above them, as one 16-bit word (every
command has this one length, 30_encoding.md R50; log 15). -/
def tableWord (nbits w : Nat) : CmdWord := BitVec.ofNat 16 (w % 2 ^ nbits)

/-- The instruction the decoder reads from a table row's bits, numbered as spec/opcode_table.json numbers them. -/
def decodeTableWord (nbits w : Nat) : Option Instr := decode (tableWord nbits w)

end Sys2Proof
end

