-- ==== Sys2Proof/Machine/Chain.lean ====
section
/-! DEFINITION. The shape of the chaining value: eight ordered 32-bit words (10_state.md R11). It is the type of the
registers `H[0..7]`, of the table `IV[0..7]` and of the working copy `HW[0..7]`. -/

namespace Sys2Proof.Machine

/-- Eight words, word 0 first (10_state.md R11). -/
@[ext] structure Chain where
  h0 : Word
  h1 : Word
  h2 : Word
  h3 : Word
  h4 : Word
  h5 : Word
  h6 : Word
  h7 : Word
  deriving DecidableEq, Repr

/-- The eight words in index order. -/
def Chain.toList (c : Chain) : List Word := [c.h0, c.h1, c.h2, c.h3, c.h4, c.h5, c.h6, c.h7]

/-- Element `j` of the eight, `j = 0..7` (00_scope.md R8); zero for the indexes that do not exist, which nothing reads. -/
def Chain.word (c : Chain) (j : Nat) : Word := c.toList.getD j 0#32

end Sys2Proof.Machine
end

