-- ==== Sys2Proof/Machine/Operands.lean ====
section
/-! DEFINITION. Byte sequences and their word view: the two memory primitives of the spec (20_memory.md R37), the
big-endian conventions (R31 to R33) and the hexadecimal digits (43_finalize.md R130). The byte order of the whole model
is decided in `beBytes` and `memRead4` and nowhere else. -/

namespace Sys2Proof.Machine

/-- The `n` bytes of the integer `v`, most significant first: `[v[8n-1:8n-8], ..., v[7:0]]` (20_memory.md R37). -/
def beBytes (n v : Nat) : List Byte :=
  (List.range n).map fun j => BitVec.ofNat 8 (v / 2 ^ (8 * (n - 1 - j)))

/-- `MemWrite(len(s), n, v)`: the append of the `n` bytes of `v` to the sequence `s`, most significant first
(20_memory.md R37). -/
def memWrite (s : List Byte) (n v : Nat) : List Byte := s ++ beBytes n v

/-- Byte `i` of a block. Bytes past the end read as zero; a block that is compressed always has 64 bytes
(42_compression.md R109), so none of them is ever used (log 11). -/
def blockByte (blk : List Byte) (i : Nat) : Byte := blk.getD i 0#8

/-- `MemRead(addr, 4)` = `BE(blk, addr, 4)`: the 4-byte big-endian value at offset `addr` of a block (20_memory.md R31,
R37). -/
def memRead4 (blk : List Byte) (addr : Nat) : Word :=
  blockByte blk addr ++ blockByte blk (addr + 1) ++ blockByte blk (addr + 2) ++ blockByte blk (addr + 3)

/-- `zeros(n)`: `n` bytes 0x00 (43_finalize.md R120). -/
def zeros (n : Nat) : List Byte := List.replicate n 0#8

/-- The eight words of a chaining value as 32 bytes, word 0 first, each most significant byte first (20_memory.md R33). -/
def serialise (c : Chain) : List Byte := c.toList.flatMap fun w => beBytes 4 w.toNat

/-- `hexdigit(v)` for a 4-bit value, as its ASCII code (43_finalize.md R130). -/
def hexDigit (v : BitVec 4) : Byte :=
  if v.toNat ≤ 9 then BitVec.ofNat 8 (0x30 + v.toNat) else BitVec.ofNat 8 (0x61 + (v.toNat - 10))

/-- The two characters of a byte, high four bits first (43_finalize.md R129). -/
def hexPair (b : Byte) : List Byte := [hexDigit (b.extractLsb' 4 4), hexDigit (b.extractLsb' 0 4)]

/-- A byte sequence as lowercase hexadecimal characters, two for each byte, in order (43_finalize.md R129). -/
def hexBytes (bs : List Byte) : List Byte := bs.flatMap hexPair

end Sys2Proof.Machine
end

