-- ==== Sys2Proof/Machine/WordOps.lean ====
section
/-! DEFINITION. The 32-bit word arithmetic and the six mixing functions (40_word_ops.md R70 to R81). Every function is
total on words, writes no flag and raises no fault (R70). -/

namespace Sys2Proof.Machine

/-- `add32(x1, ..., xn)`: the exact sum of the operands modulo `2^32` (40_word_ops.md R71). DESIGN CHOICE (log 11): R71
gives it for two or more operands only; of no operand it is 0 here and of one operand that word. -/
def add32 (xs : List Word) : Word := BitVec.ofNat 32 (xs.map BitVec.toNat).sum

/-- `rotr(x, n)` (40_word_ops.md R72); an amount outside 1..31 is taken modulo 32, as that rule suggests. -/
def rotr (x : Word) (n : Nat) : Word := (x >>> (n % 32)) ||| (x <<< (32 - n % 32))

/-- `shr(x, n)`, the logical shift right (40_word_ops.md R73). -/
def shr (x : Word) (n : Nat) : Word := x >>> n

/-- `~x`, the complement of all 32 bits and of no more (40_word_ops.md R75). -/
def not32 (x : Word) : Word := x ^^^ 0xffffffff#32

/-- `ssig0`, DOC's lower-case sigma zero (40_word_ops.md R76). -/
def ssig0 (x : Word) : Word := rotr x 7 ^^^ rotr x 18 ^^^ shr x 3

/-- `ssig1`, DOC's lower-case sigma one (40_word_ops.md R77). -/
def ssig1 (x : Word) : Word := rotr x 17 ^^^ rotr x 19 ^^^ shr x 10

/-- `bsig0`, DOC's upper-case sigma zero (40_word_ops.md R78). -/
def bsig0 (x : Word) : Word := rotr x 2 ^^^ rotr x 13 ^^^ rotr x 22

/-- `bsig1`, DOC's upper-case sigma one (40_word_ops.md R79). -/
def bsig1 (x : Word) : Word := rotr x 6 ^^^ rotr x 11 ^^^ rotr x 25

/-- `Ch(e, f, g)` (40_word_ops.md R80). -/
def ch (e f g : Word) : Word := (e &&& f) ^^^ (not32 e &&& g)

/-- `Maj(a, b, c)` (40_word_ops.md R81). -/
def maj (a b c : Word) : Word := (a &&& b) ^^^ (a &&& c) ^^^ (b &&& c)

end Sys2Proof.Machine
end

