-- ==== Sys2Proof/Machine/Compression.lean ====
section
/-! DEFINITION. The compression routine `Compress(Hin, blk)` (42_compression.md R100 to R109): the message-schedule
expander, the 64 rounds and the feed-forward. It is a pure function; the scratch `W`, `a..h`, `t1`, `t2` of
10_state.md R18 and R19 are its local values (R26). -/

namespace Sys2Proof.Machine

/-- The working variables `a..h` (10_state.md R19). -/
@[ext] structure Vars where
  a : Word
  b : Word
  c : Word
  d : Word
  e : Word
  f : Word
  g : Word
  h : Word
  deriving DecidableEq, Repr

/-- Step 1, first half: the 16 big-endian words of the block (42_compression.md R101). -/
def blockWords (blk : List Byte) : List Word := (List.range Config.blockWords).map fun t => memRead4 blk (4 * t)

/-- `W[i]` of a schedule whose first words are already computed (10_state.md R18). -/
def scheduleWord (w : List Word) (i : Nat) : Word := w.getD i 0#32

/-- The recurrence for `W[i]`, `16 <= i <= 63` (42_compression.md R102). -/
def recurrence (w : List Word) (i : Nat) : Word :=
  add32 [ssig1 (scheduleWord w (i - 2)), scheduleWord w (i - 7), ssig0 (scheduleWord w (i - 15)),
    scheduleWord w (i - 16)]

/-- Step 1 whole: `W[0..63]`, the words from 16 on computed in increasing order (42_compression.md R100, R102). -/
def schedule (blk : List Byte) : List Word :=
  (List.range' Config.blockWords (Config.scheduleWords - Config.blockWords)).foldl
    (fun w i => w ++ [recurrence w i]) (blockWords blk)

/-- Step 2: the working variables start as the incoming chaining words, in order (42_compression.md R104). -/
def loadVars (c : Chain) : Vars := ⟨c.h0, c.h1, c.h2, c.h3, c.h4, c.h5, c.h6, c.h7⟩

/-- `t1` of a round with constant `ki` and schedule word `wi` (42_compression.md R105). -/
def roundT1 (v : Vars) (ki wi : Word) : Word := add32 [v.h, bsig1 v.e, ch v.e v.f v.g, ki, wi]

/-- `t2` of a round (42_compression.md R105). -/
def roundT2 (v : Vars) : Word := add32 [bsig0 v.a, maj v.a v.b v.c]

/-- One round, as one simultaneous register transfer (42_compression.md R105). -/
def roundStep (v : Vars) (ki wi : Word) : Vars :=
  ⟨add32 [roundT1 v ki wi, roundT2 v], v.a, v.b, v.c, add32 [v.d, roundT1 v ki wi], v.e, v.f, v.g⟩

/-- Step 3 for the rounds `0, 1, ..., n-1`, in increasing order, round `i` with `K[i]` and `W[i]`
(42_compression.md R106). -/
def runRounds (n : Nat) (w : List Word) (v : Vars) : Vars :=
  (List.range n).foldl (fun v i => roundStep v (kConst i) (scheduleWord w i)) v

/-- Step 4: each working variable is added to the chaining word it was loaded from (42_compression.md R107). -/
def feedForward (c : Chain) (v : Vars) : Chain :=
  ⟨add32 [c.h0, v.a], add32 [c.h1, v.b], add32 [c.h2, v.c], add32 [c.h3, v.d],
   add32 [c.h4, v.e], add32 [c.h5, v.f], add32 [c.h6, v.g], add32 [c.h7, v.h]⟩

/-- `Compress(Hin, blk)` (42_compression.md R100). -/
def compress (hin : Chain) (blk : List Byte) : Chain :=
  feedForward hin (runRounds Config.rounds (schedule blk) (loadVars hin))

end Sys2Proof.Machine
end

