-- ==== Sys2Proof/Machine/State.lean ====
section
/-! DEFINITION. The state of the engine as plain data, the state after reset, and the reasons a step can stop (there are
none that a run can meet).

The architectural state is `H`, `BUF` (with its length `FILL`), `BITCNT` and `FAULT` (10_state.md R10). Beside it stand
the response port (30_encoding.md R63), the record of the completed responses (70_reset_and_hazards.md R170) and the
samples of the input ports the host will drive (30_encoding.md R62). The tables `IV` and `K` are constants and the
scratch storage is no state (10_state.md R26, R27). -/

namespace Sys2Proof.Machine

/-- The contents of the `FAULT` register (10_state.md R15). Value 3 is never written and the type does not have it. -/
inductive FaultCode where
  /-- Code 0: no fault recorded, commands execute normally. -/
  | none
  /-- Code 1: the host gave a word that is no command (60_exceptions.md R142). -/
  | illegalCmd
  /-- Code 2: an ABSORB would have made the bit count exceed `2^64 - 1` (60_exceptions.md R143). -/
  | lenOverflow
  deriving DecidableEq, Repr

/-- The only byte storage that lasts from one command to the next: the pending buffer `BUF`, a byte sequence, oldest byte
first (10_state.md R12, 20_memory.md R30). The engine has no addresses (20_memory.md R38), so this is the whole memory. -/
abbrev Memory := List Byte

/-- The form of the buffer between commands: fewer than 64 bytes (10_state.md R12, R14(d)). Nothing is stored at positions
`FILL` and above, so equal buffers are equal data. -/
def Memory.wf (m : Memory) : Bool := m.length < 64

/-- One sampling of the input ports (30_encoding.md R62). -/
structure HostInput where
  /-- `rst`: reset, active high. -/
  rst : Bool
  /-- `cmd_valid` and `cmd`: the command word presented, or nothing presented. -/
  cmd : Option CmdWord
  /-- `rsp_ready`: the host takes a response byte if one is presented. -/
  rspReady : Bool
  deriving DecidableEq, Repr

/-- The whole state (10_state.md R10; 30_encoding.md R62, R63; 70_reset_and_hazards.md R170). -/
structure State where
  /-- `H[0..7]`, the chaining value (10_state.md R11). -/
  h : Chain
  /-- `BUF`, the bytes absorbed and not yet compressed (10_state.md R12). -/
  buf : Memory
  /-- `BITCNT`, the message bits absorbed since the last INIT or reset (10_state.md R13). -/
  bitcnt : Count
  /-- `FAULT`, the first fault recorded since reset (10_state.md R15). -/
  fault : FaultCode
  /-- The bytes of the current response that the host has not taken, next one first (30_encoding.md R63). -/
  rspLeft : List Byte
  /-- The bytes of the current response that the host has taken, in index order (30_encoding.md R63). -/
  rspTaken : List Byte
  /-- The completed responses of the run so far, in order (70_reset_and_hazards.md R170). The model's own record: no rule
  of the engine reads it (log 5). -/
  responses : List (List Byte)
  /-- The samples of the input ports to come, next one first. The model's own field: the host's side (log 2). -/
  inputs : List HostInput
  deriving DecidableEq, Repr

/-- `FILL = len(BUF)` (10_state.md R12, R23). -/
def State.fill (s : State) : Nat := s.buf.length

/-- The architectural state alone (10_state.md R10). -/
@[ext] structure Arch where
  h : Chain
  buf : Memory
  bitcnt : Count
  fault : FaultCode
  deriving DecidableEq, Repr

/-- The architectural part of a state (10_state.md R10). -/
def State.arch (s : State) : Arch := ⟨s.h, s.buf, s.bitcnt, s.fault⟩

/-- The state right after reset (10_state.md R25, 70_reset_and_hazards.md R160): `H = IV`, `BUF` empty, `BITCNT = 0`,
`FAULT = 0`, no response pending. No response is recorded yet and the host has driven nothing (log 2, log 5). -/
def State.reset : State where
  h := iv
  buf := []
  bitcnt := 0#64
  fault := .none
  rspLeft := []
  rspTaken := []
  responses := []
  inputs := []

/-- The reasons the machine stops with a fault. There are none: the two faults of the spec are recorded in the `FAULT`
register and the engine goes on, ignoring commands until reset (60_exceptions.md R144, R145), so they are next states;
and every command completes (42_compression.md R109, 70_reset_and_hazards.md R167). Safe: no run is cut short (log 16). -/
inductive Fault where
  deriving DecidableEq, Repr

/-- The reasons the model gives an instruction no meaning. -/
inductive Refusal where
  /-- An arm of `exec` that has no meaning yet, by the instruction's mnemonic; raised by no arm, since all four have
  theirs. Safe: the model would stop where the hardware goes on. -/
  | notModelled (mnemonic : String)
  deriving DecidableEq, Repr

end Sys2Proof.Machine
end

