-- ==== Sys2Proof/Machine/Flags.lean ====
section
/-! DEFINITION. The status of the engine: the `FAULT` register as the two bits the host sees, and the conditions the
controller recomputes from the state each time and stores nowhere (10_state.md R15, R22). There are no condition codes
(R22). -/

namespace Sys2Proof.Machine

/-- The 2-bit code of a fault (10_state.md R15). -/
def FaultCode.code : FaultCode → BitVec 2
  | .none => 0#2
  | .illegalCmd => 1#2
  | .lenOverflow => 2#2

/-- The overflow check of ABSORB: `BITCNT + 8 > 2^64 - 1`, computed as an integer (41_init_update.md R91,
40_word_ops.md R82). -/
def countOverflows (n : Count) : Bool := n.toNat + Config.bitsPerAbsorb > Config.countMax

/-- The buffer holds a whole block: `FILL = 64` after the append of ABSORB (10_state.md R22, 41_init_update.md R91). -/
def blockComplete (b : Memory) : Bool := b.length = Config.blockBytes

/-- Step 2 of DIGEST: the length field no longer fits, `len(PB) > 56`, strictly (10_state.md R22, 43_finalize.md R122). -/
def lengthDoesNotFit (pb : List Byte) : Bool := pb.length > Config.padLimit

end Sys2Proof.Machine
end

