-- ==== Sys2Proof/Machine/Ops.lean ====
section
/-! DEFINITION. The shared operations on the state: writing the registers, giving a response, recording a fault, ignoring
a command, reset (which is the only return from a fault), and the sequencing of outcomes. -/

namespace Sys2Proof.Machine

/-- `H <- v`, all eight words at once (00_scope.md R8). -/
def State.setChain (s : State) (v : Chain) : State := { s with h := v }

/-- `BUF <- b` (00_scope.md R8). -/
def State.setBuf (s : State) (b : Memory) : State := { s with buf := b }

/-- `BITCNT <- n` (00_scope.md R8). -/
def State.setCount (s : State) (n : Count) : State := { s with bitcnt := n }

/-- `respond(r)`: `r` is the response of the command (00_scope.md R8, 30_encoding.md R56). A non-empty response is put on
the response port, to be taken byte by byte; an empty one is complete at once, since it raises no `rsp_valid`
(30_encoding.md R63). DESIGN CHOICE (log 21): no rule covers a command issued while a response is pending
(70_reset_and_hazards.md R171) and no step issues one; here a non-empty response then takes the place of the pending
bytes, and an empty one is recorded ahead of them. -/
def State.respond (s : State) (r : List Byte) : State :=
  if r.isEmpty then { s with responses := s.responses ++ [[]] } else { s with rspLeft := r, rspTaken := [] }

/-- Fault entry, `raise <Fault>` (60_exceptions.md R144, 00_scope.md R8): the code is recorded if none is recorded yet,
nothing else changes, and the response is empty. There is no handler, no vector and nothing is saved. -/
def State.raiseFault (s : State) (c : FaultCode) : State :=
  State.respond { s with fault := if s.fault = .none then c else s.fault } []

/-- What a faulted engine does with any command word: nothing, with the empty response (60_exceptions.md R145). -/
def State.ignoreCommand (s : State) : State := s.respond []

/-- The first check of every command (60_exceptions.md R147, step 1): a command has its effect only while `FAULT = 0`
and is ignored otherwise (R145). -/
def unlessFaulted (s : State) (effect : Host.Outcome State Fault Refusal) : Host.Outcome State Fault Refusal :=
  if s.fault = .none then effect else .next s.ignoreCommand

/-- Reset, the only way out of a fault (60_exceptions.md R146): the engine takes the reset state, whatever it was doing;
response bytes not yet taken are dropped (70_reset_and_hazards.md R160, R162). The record of completed responses and the
host's side are not part of the engine and stay (log 5). -/
def State.hardReset (s : State) : State :=
  { s with h := iv, buf := [], bitcnt := 0#64, fault := .none, rspLeft := [], rspTaken := [] }

/-- Go on from an outcome with a further operation if it is a next state. -/
def andThen (o : Host.Outcome State Fault Refusal) (f : State → Host.Outcome State Fault Refusal) :
    Host.Outcome State Fault Refusal :=
  match o with
  | .next s => f s
  | .fault r => .fault r
  | .refused r => .refused r

end Sys2Proof.Machine
end

