-- ==== Sys2Proof/Machine/Finalize.lean ====
section
/-! DEFINITION. DIGEST and DIGESTHEX: the padding and finalization controller (43_finalize.md R120 to R130). It works on
a copy of the live state (R127); the copy is scratch and no part of State (10_state.md R20, R26). -/

namespace Sys2Proof.Machine

/-- The working copy `HW`, `PB`, `LEN` (10_state.md R20). -/
structure WorkCopy where
  hw : Chain
  pb : List Byte
  len : Count
  deriving DecidableEq, Repr

/-- The snapshot of the live state (43_finalize.md R120, 20_memory.md R42). -/
def State.snapshot (s : State) : WorkCopy := ⟨s.h, s.buf, s.bitcnt⟩

/-- Step 1: one byte 0x80 is appended, always (43_finalize.md R121). -/
def WorkCopy.mark (c : WorkCopy) : WorkCopy := { c with pb := memWrite c.pb 1 Config.padMark.toNat }

/-- Step 2: when the length field no longer fits, the buffer is filled with zeros, compressed and emptied
(43_finalize.md R122). -/
def WorkCopy.overflowBlock (c : WorkCopy) : WorkCopy :=
  if lengthDoesNotFit c.pb then
    { c with hw := compress c.hw (c.pb ++ zeros (Config.blockBytes - c.pb.length)), pb := [] }
  else c

/-- Step 3: zeros up to 56 bytes (43_finalize.md R123). -/
def WorkCopy.fillToLimit (c : WorkCopy) : WorkCopy := { c with pb := c.pb ++ zeros (Config.padLimit - c.pb.length) }

/-- Step 4: the eight bytes of `LEN` (43_finalize.md R124, 20_memory.md R32). -/
def WorkCopy.appendLength (c : WorkCopy) : WorkCopy :=
  { c with pb := memWrite c.pb Config.lengthBytes c.len.toNat }

/-- Step 5: the last block is compressed (43_finalize.md R125). -/
def WorkCopy.lastBlock (c : WorkCopy) : WorkCopy := { c with hw := compress c.hw c.pb }

/-- Steps 1 to 5 on the snapshot: the final `HW` (43_finalize.md R120). -/
def finalChain (s : State) : Chain := s.snapshot.mark.overflowBlock.fillToLimit.appendLength.lastBlock.hw

/-- Step 6: the 32 bytes DIGEST responds with in this state (43_finalize.md R126). -/
def digestBytes (s : State) : List Byte := serialise (finalChain s)

/-- The 64 bytes DIGESTHEX responds with in this state (43_finalize.md R129). -/
def digestHexBytes (s : State) : List Byte := hexBytes (digestBytes s)

/-- DIGEST (43_finalize.md R120): only the response; the live state is not written (R127). -/
def execDigest (s : State) : Host.Outcome State Fault Refusal :=
  unlessFaulted s (.next (s.respond (digestBytes s)))

/-- DIGESTHEX (43_finalize.md R129): only the response; the live state is not written (R127). -/
def execDigesthex (s : State) : Host.Outcome State Fault Refusal :=
  unlessFaulted s (.next (s.respond (digestHexBytes s)))

end Sys2Proof.Machine
end

