-- ==== Sys2Proof/Machine/InitUpdate.lean ====
section
/-! DEFINITION. INIT and ABSORB, the commands that build up a message (41_init_update.md R90, R91). -/

namespace Sys2Proof.Machine

/-- What INIT writes: `H <- IV`, `BUF <- []`, `BITCNT <- 0` (41_init_update.md R90). -/
def State.startMessage (s : State) : State := ((s.setChain iv).setBuf []).setCount 0#64

/-- Consumption of the buffer: when it holds a whole block, `H <- Compress(H, BUF)` and `BUF <- []`
(41_init_update.md R91, 20_memory.md R43). -/
def State.consumeBlock (s : State) : State :=
  if blockComplete s.buf then (s.setChain (compress s.h s.buf)).setBuf [] else s

/-- What ABSORB writes: the byte is appended, the counter grows by 8, and a completed block is consumed
(41_init_update.md R91). -/
def State.takeMessageByte (s : State) (b : Byte) : State :=
  ((s.setBuf (memWrite s.buf 1 b.toNat)).setCount (s.bitcnt + BitVec.ofNat 64 Config.bitsPerAbsorb)).consumeBlock

/-- INIT (41_init_update.md R90). -/
def execInit (s : State) : Host.Outcome State Fault Refusal :=
  unlessFaulted s (.next (s.startMessage.respond []))

/-- ABSORB b (41_init_update.md R91): the overflow check comes before anything is written (60_exceptions.md R143, R147). -/
def execAbsorb (b : Byte) (s : State) : Host.Outcome State Fault Refusal :=
  unlessFaulted s
    (if countOverflows s.bitcnt then .next (s.raiseFault .lenOverflow)
     else .next ((s.takeMessageByte b).respond []))

end Sys2Proof.Machine
end

