-- ==== Sys2Proof/Machine/Ports.lean ====
section
/-! DEFINITION. The host ports and the handshake (30_encoding.md R62, R63): the outputs as functions of the state, the
taking of a response byte, and what one sampling of the input ports makes the engine do. -/

namespace Sys2Proof.Machine

/-- `rsp_valid`: the engine presents a response byte (30_encoding.md R62). -/
def State.rspValid (s : State) : Bool := !s.rspLeft.isEmpty

/-- `rsp_byte`: the byte presented; no value while `rsp_valid = 0` (30_encoding.md R62, 93_implementation_defined.md S6). -/
def State.rspByte (s : State) : Option Byte := s.rspLeft.head?

/-- `rsp_last`: the byte presented is the last one of its response; no value while `rsp_valid = 0` (30_encoding.md R62,
R63, 93_implementation_defined.md S6). -/
def State.rspLast (s : State) : Option Bool :=
  match s.rspLeft with
  | [] => Option.none
  | _ :: rest => some rest.isEmpty

/-- `cmd_ready`: low while `rst` is high and while a response is pending (30_encoding.md R63,
70_reset_and_hazards.md R160). -/
def State.cmdReady (s : State) (rst : Bool) : Bool := !rst && !s.rspValid

/-- `fault`: the value of FAULT, continuously (30_encoding.md R62). -/
def State.faultOut (s : State) : BitVec 2 := s.fault.code

/-- The host takes the response byte presented; with the last byte the response is complete (30_encoding.md R63). -/
def State.takeRspByte (s : State) : State :=
  match s.rspLeft with
  | [] => s
  | [b] => { s with rspLeft := [], rspTaken := [], responses := s.responses ++ [s.rspTaken ++ [b]] }
  | b :: rest => { s with rspLeft := rest, rspTaken := s.rspTaken ++ [b] }

/-- The host takes every byte that is left of the response (70_reset_and_hazards.md R165). -/
def State.drain (s : State) : State :=
  if s.rspValid then
    { s with rspLeft := [], rspTaken := [], responses := s.responses ++ [s.rspTaken ++ s.rspLeft] }
  else s

/-- What one sampling of the input ports makes the engine do (30_encoding.md R63). -/
inductive PortAction where
  /-- Nothing is driven that the engine acts on, or the host drives no more: it is idle (70_reset_and_hazards.md R170). -/
  | idle
  /-- `rst` is sampled high: reset overrides everything else (60_exceptions.md R147, 70_reset_and_hazards.md R160). -/
  | reset
  /-- A response byte is presented and the host does not take it: the engine waits, losing nothing (30_encoding.md R63). -/
  | wait
  /-- A response byte is presented and taken. -/
  | take
  /-- A command word is presented while `cmd_ready` is high: it is issued. -/
  | issue (w : CmdWord)
  deriving DecidableEq, Repr

/-- The action of the next sample (30_encoding.md R62, R63; 70_reset_and_hazards.md R160). A command presented while
`cmd_ready` is low is not issued by that sample (log 6). -/
def State.portAction (s : State) : PortAction :=
  match s.inputs with
  | [] => .idle
  | p :: _ =>
    if p.rst then .reset
    else if s.rspValid then (if p.rspReady then .take else .wait)
    else
      match p.cmd with
      | Option.none => .idle
      | some w => .issue w

/-- The sample has been used; the next one is in front. -/
def State.dropInput (s : State) : State := { s with inputs := s.inputs.tail }

/-- A sample that presents a command word and takes no byte. -/
def presentCommand (w : CmdWord) : HostInput := ⟨false, some w, false⟩

/-- A sample that takes a response byte and presents no command. -/
def takeByteInput : HostInput := ⟨false, Option.none, true⟩

/-- A sample with `rst` high. -/
def resetInput : HostInput := ⟨true, Option.none, false⟩

/-- The samples by which a host issues one command whose response has `n` bytes and takes the whole response
(70_reset_and_hazards.md R165). -/
def commandScript (w : CmdWord) (n : Nat) : List HostInput := presentCommand w :: List.replicate n takeByteInput

end Sys2Proof.Machine
end

