-- ==== Sys2Proof/Machine/Issue.lean ====
section
/-! DEFINITION. What the engine does with one command word: the order of checks of 60_exceptions.md R147, and a command
sequence with the host taking every response whole (70_reset_and_hazards.md R170). -/

namespace Sys2Proof.Machine

/-- The command word `w` is issued. First match wins (60_exceptions.md R147): a faulted engine ignores it, undecoded
(R145); a word that is no command raises ILLEGAL_CMD (R142); the rest is the command's own (the overflow check of ABSORB
among it). On a state with a response pending, where no step issues a word, see log 21. -/
def issue (w : CmdWord) (s : State) : Host.Outcome State Fault Refusal :=
  unlessFaulted s
    (match decode w with
     | Option.none => .next (s.raiseFault .illegalCmd)
     | some i => exec i s)

/-- One whole transaction: the command word is issued and the host takes its whole response (20_memory.md R39,
70_reset_and_hazards.md R165). -/
def transact (w : CmdWord) (s : State) : Host.Outcome State Fault Refusal :=
  andThen (issue w s) fun t => .next t.drain

/-- A finite sequence of command words, each a whole transaction, in order (70_reset_and_hazards.md R170). -/
def runWords : List CmdWord → State → Host.Outcome State Fault Refusal
  | [], s => .next s
  | w :: ws, s => andThen (transact w s) (runWords ws)

/-- The work of one step: the next sample of the input ports is used and the engine does what it makes it do. -/
def clockPorts (s : State) : Host.Outcome State Fault Refusal :=
  match s.portAction with
  | .idle => .next s.dropInput
  | .reset => .next s.dropInput.hardReset
  | .wait => .next s.dropInput
  | .take => .next s.dropInput.takeRspByte
  | .issue w => issue w s.dropInput

/-- The command word placed as the very next thing the host drives, with `cmd_ready` high: the sample that presents it
stands in front of the others and no response is pending (log 2). -/
def placeCommand (w : CmdWord) (s : State) : State :=
  { s with inputs := presentCommand w :: s.inputs, rspLeft := [], rspTaken := [] }

end Sys2Proof.Machine
end

