-- ==== Sys2Proof/Machine/Step.lean ====
section
/-! DEFINITION. One step of the machine, and how the host places an instruction that the next step runs. -/

namespace Sys2Proof.Machine

/-- One step: one sampling of the ports at which the engine has finished any earlier command (00_scope.md R3,
30_encoding.md R63; log 1). -/
def step (s : State) : Host.Outcome State Fault Refusal := clockPorts s

/-- The state with the instruction of a table row's bits placed where the step takes its next command from. -/
def State.withFetchWord (s : State) (nbits w : Nat) : State := placeCommand (tableWord nbits w) s

end Sys2Proof.Machine
end

