-- ==== Sys2Proof/Machine/Assembler.lean ====
section
/-! DEFINITION. The notation in which the spec writes command sequences, and what it assembles to (30_encoding.md R57 to
R59, 43_finalize.md R131): the four commands, the directive `.word`, comments, and the pseudo-instructions UPDATE, HASH
and HASHHEX. A text line is represented by what it says, not by its characters. -/

namespace Sys2Proof.Machine

/-- A byte operand: a number, or a single printable ASCII character in single quotes (30_encoding.md R57). -/
inductive SrcByte where
  | num (n : Nat)
  | chr (c : Char)
  deriving DecidableEq, Repr

/-- A byte sequence: a list of bytes, a repeat, or a quoted string (30_encoding.md R58). -/
inductive SrcBytes where
  | list (bs : List SrcByte)
  | rep (n : Nat) (b : SrcByte)
  | str (cs : List Char)
  deriving DecidableEq, Repr

/-- A line of a program (30_encoding.md R57, R58, R59). -/
inductive SrcLine where
  | init
  | absorb (b : SrcByte)
  | digest
  | digesthex
  | word (w : Nat)
  | comment
  | update (s : SrcBytes)
  | hash (s : SrcBytes)
  | hashhex (s : SrcBytes)
  deriving DecidableEq, Repr

/-- A printable character of the range 0x20 to 0x7E, for which UTF-8 is the one byte equal to the ASCII code
(30_encoding.md R58); other characters are outside the notation modelled here (log 14). -/
def printable (c : Char) : Bool := 0x20 ≤ c.toNat && c.toNat ≤ 0x7E

/-- The byte operand is well formed (30_encoding.md R57). -/
def SrcByte.wf : SrcByte → Bool
  | .num n => n < 256
  | .chr c => printable c

/-- The value of a byte operand (30_encoding.md R57). -/
def SrcByte.value : SrcByte → Byte
  | .num n => BitVec.ofNat 8 n
  | .chr c => BitVec.ofNat 8 c.toNat

/-- The byte sequence is well formed (30_encoding.md R58). -/
def SrcBytes.wf : SrcBytes → Bool
  | .list bs => bs.all SrcByte.wf
  | .rep _ b => b.wf
  | .str cs => cs.all printable

/-- The bytes a byte sequence stands for (30_encoding.md R58). -/
def SrcBytes.value : SrcBytes → List Byte
  | .list bs => bs.map SrcByte.value
  | .rep n b => List.replicate n b.value
  | .str cs => cs.map fun c => BitVec.ofNat 8 c.toNat

/-- The line is well formed (30_encoding.md R57 to R59). -/
def SrcLine.wf : SrcLine → Bool
  | .init => true
  | .absorb b => b.wf
  | .digest => true
  | .digesthex => true
  | .word w => w < 2 ^ 16
  | .comment => true
  | .update s => s.wf
  | .hash s => s.wf
  | .hashhex s => s.wf

/-- The expansion of `UPDATE`: one ABSORB for each byte, in order (30_encoding.md R58). -/
def updateWords (bs : List Byte) : List CmdWord := bs.map fun b => encode (.absorb b)

/-- The expansion of `HASH`: `INIT; UPDATE s; DIGEST` (30_encoding.md R59, 43_finalize.md R131). -/
def hashWords (bs : List Byte) : List CmdWord := encode .init :: updateWords bs ++ [encode .digest]

/-- The expansion of `HASHHEX`: `INIT; UPDATE s; DIGESTHEX` (30_encoding.md R59, 43_finalize.md R131). -/
def hashhexWords (bs : List Byte) : List CmdWord := encode .init :: updateWords bs ++ [encode .digesthex]

/-- The words of a well-formed line (30_encoding.md R57 to R59). -/
def SrcLine.words : SrcLine → List CmdWord
  | .init => [encode .init]
  | .absorb b => [encode (.absorb b.value)]
  | .digest => [encode .digest]
  | .digesthex => [encode .digesthex]
  | .word w => [BitVec.ofNat 16 w]
  | .comment => []
  | .update s => updateWords s.value
  | .hash s => hashWords s.value
  | .hashhex s => hashhexWords s.value

/-- A program assembles to the list of its lines' words, in order; an ill-formed line is refused (30_encoding.md R57). -/
def assemble : List SrcLine → Option (List CmdWord)
  | [] => some []
  | l :: ls => if l.wf then (assemble ls).map (l.words ++ ·) else Option.none

end Sys2Proof.Machine
end

