-- ==== Sys2Proof/Machine/Variants.lean ====
section
/-! DEFINITION. The other ways of computing `Compress` that the spec allows an implementation: the schedule kept as a
window of 16 words (42_compression.md R103), and the eight assignments of a round executed one after another in DOC's
order (R105). The machine uses neither; that they compute the same is what the statements about them say. -/

namespace Sys2Proof.Machine

/-- `W[i]` from the window `S[0..15]` that holds `W[i-16..i-1]` (42_compression.md R103). -/
def windowNext (s : List Word) : Word :=
  add32 [ssig1 (scheduleWord s 14), scheduleWord s 9, ssig0 (scheduleWord s 1), scheduleWord s 0]

/-- The window shifts by one word (42_compression.md R103). -/
def windowShift (s : List Word) : List Word := s.drop 1 ++ [windowNext s]

/-- `n` rounds from round `i` on, `i >= 16`: each computes `W[i]` from the window that holds `W[i-16..i-1]`, uses it in
the round, and shifts it into the window (42_compression.md R103). -/
def windowRounds : Nat → Nat → List Word → Vars → Vars
  | 0, _, _, v => v
  | n + 1, i, s, v => windowRounds n (i + 1) (windowShift s) (roundStep v (kConst i) (windowNext s))

/-- `Compress` with a schedule window of 16 words: rounds 0 to 15 use the words of the block, which are then the window
of round 16 (42_compression.md R103). -/
def compressWindow (hin : Chain) (blk : List Byte) : Chain :=
  feedForward hin
    (windowRounds (Config.rounds - Config.blockWords) Config.blockWords (blockWords blk)
      (runRounds Config.blockWords (blockWords blk) (loadVars hin)))

/-- The eight assignments of a round (42_compression.md R105), one constructor for each. -/
inductive RoundMove where
  | hFromG | gFromF | fFromE | eFromDT1 | dFromC | cFromB | bFromA | aFromT1T2
  deriving DecidableEq, Repr

/-- One assignment, with `t1` and `t2` computed before any of them (42_compression.md R105). -/
def RoundMove.run (t1 t2 : Word) (v : Vars) : RoundMove → Vars
  | .hFromG => { v with h := v.g }
  | .gFromF => { v with g := v.f }
  | .fFromE => { v with f := v.e }
  | .eFromDT1 => { v with e := add32 [v.d, t1] }
  | .dFromC => { v with d := v.c }
  | .cFromB => { v with c := v.b }
  | .bFromA => { v with b := v.a }
  | .aFromT1T2 => { v with a := add32 [t1, t2] }

/-- DOC's order: `h` first, `a` last (42_compression.md R105). -/
def docOrder : List RoundMove :=
  [.hFromG, .gFromF, .fFromE, .eFromDT1, .dFromC, .cFromB, .bFromA, .aFromT1T2]

/-- A round whose assignments are executed one after another in the given order (42_compression.md R105). -/
def roundInOrder (order : List RoundMove) (v : Vars) (ki wi : Word) : Vars :=
  order.foldl (RoundMove.run (roundT1 v ki wi) (roundT2 v)) v

end Sys2Proof.Machine
end

