-- ==== Sys2Proof/Machine/Message.lean ====
section
/-! DEFINITION. What the spec states about whole messages: DOC's `update` as a function on states (41_init_update.md
R92), the state as a function of the message (R96), the padding in closed form (43_finalize.md R128) and the digest as a
function of the message (R133). No step of the machine calls these; the statements compare the machine with them. -/

namespace Sys2Proof.Machine

/-- The loop of DOC's `update`: while at least 64 bytes are buffered, the first 64 are compressed and removed
(41_init_update.md R92). The first argument bounds the number of turns. -/
def consumeBlocks : Nat → Chain → List Byte → Chain × List Byte
  | 0, h, b => (h, b)
  | n + 1, h, b =>
    if b.length < Config.blockBytes then (h, b)
    else consumeBlocks n (compress h (b.take Config.blockBytes)) (b.drop Config.blockBytes)

/-- DOC's `update(data)` on the architectural state (41_init_update.md R92). A buffer of `n` bytes holds at most `n`
blocks, so `n` turns are enough. DESIGN CHOICE (log 20): R92 gives the function for `FAULT = 0` and
`BITCNT + 8n <= 2^64 - 1` only, and DOC's update has no defined behaviour beyond that bound (R93); here the count then
wraps modulo `2^64`, and a recorded fault is kept. -/
def docUpdate (data : List Byte) (a : Arch) : Arch :=
  let b := a.buf ++ data
  let r := consumeBlocks b.length a.h b
  { a with h := r.1, buf := r.2, bitcnt := BitVec.ofNat 64 (a.bitcnt.toNat + 8 * data.length) }

/-- Block `q` of a byte sequence: bytes `64q` to `64q + 63` (41_init_update.md R96); past the end of the sequence it has
fewer bytes or none (log 11). -/
def messageBlock (m : List Byte) (q : Nat) : List Byte := (m.drop (64 * q)).take 64

/-- `CH(q)`: the chaining value after the first `q` blocks of `m` (41_init_update.md R96, 43_finalize.md R133). -/
def chainAfter (m : List Byte) : Nat → Chain
  | 0 => iv
  | q + 1 => compress (chainAfter m q) (messageBlock m q)

/-- The architectural state as a function of the message (41_init_update.md R96). DESIGN CHOICE (log 11): R96 gives it for
`8n <= 2^64 - 8` only; beyond that the count wraps here. -/
def archOfMessage (m : List Byte) : Arch where
  h := chainAfter m (m.length / 64)
  buf := m.drop (64 * (m.length / 64))
  bitcnt := BitVec.ofNat 64 (8 * m.length)
  fault := .none

/-- The message bytes of a command sequence: the operands of its ABSORB commands, in order (00_scope.md section 6,
"Message"). -/
def absorbedBytes : List Instr → List Byte
  | [] => []
  | .absorb b :: is => b :: absorbedBytes is
  | .init :: is => absorbedBytes is
  | .digest :: is => absorbedBytes is
  | .digesthex :: is => absorbedBytes is

/-- The length in bytes of the message after one more command word, when it had `n` bytes before and no fault occurs:
INIT starts a new message, ABSORB adds a byte (00_scope.md section 6, "Message"). -/
def lengthAfterWord (n : Nat) (w : CmdWord) : Nat :=
  match decode w with
  | some .init => 0
  | some (.absorb _) => n + 1
  | some .digest => n
  | some .digesthex => n
  | Option.none => n

/-- The length in bytes of the message after a sequence of command words. -/
def messageLength (n : Nat) (ws : List CmdWord) : Nat := ws.foldl lengthAfterWord n

/-- The blocks DIGEST compresses, in closed form (43_finalize.md R128, for `n <= 63`). DESIGN CHOICE (log 11): for a longer
buffer the first block has more than 64 bytes here. -/
def paddingBlocks (b : List Byte) (l : Count) : List (List Byte) :=
  if b.length ≤ 55 then
    [b ++ [0x80#8] ++ List.replicate (55 - b.length) 0x00#8 ++ beBytes 8 l.toNat]
  else
    [b ++ [0x80#8] ++ List.replicate (63 - b.length) 0x00#8,
     List.replicate 56 0x00#8 ++ beBytes 8 l.toNat]

/-- `z`: the number of zero bytes of the padding of a message of `n` bytes (43_finalize.md R133). -/
def padZeros (n : Nat) : Nat := (55 + 64 - n % 64) % 64

/-- The padded message `M'` (43_finalize.md R133). DESIGN CHOICE (log 11): where `8N` does not fit the eight bytes of the
length field, its low 64 bits are taken here. -/
def paddedMessage (m : List Byte) : List Byte :=
  m ++ [0x80#8] ++ List.replicate (padZeros m.length) 0x00#8 ++ beBytes 8 (8 * m.length)

/-- The digest of a message (43_finalize.md R133). -/
def digestOfMessage (m : List Byte) : List Byte :=
  serialise (chainAfter (paddedMessage m) ((paddedMessage m).length / 64))

end Sys2Proof.Machine
end

