-- ==== Sys2Proof/Safety.lean ====
section
/-! DEFINITION. What counts as a good state, in the terms the statements use: the invariant of the architectural state
(10_state.md R14), that of the response port, and a clean end of a run (70_reset_and_hazards.md R170). -/

namespace Sys2Proof.Machine

/-- The invariant of the architectural state (10_state.md R14): (a) `BITCNT mod 8 = 0`; (b) `FILL = (BITCNT / 8) mod 64`;
(c) `BITCNT <= 2^64 - 8`; (d) `FILL <= 63`. -/
structure Arch.Inv (a : Arch) : Prop where
  countInBytes : a.bitcnt.toNat % 8 = 0
  fillOfCount : a.buf.length = a.bitcnt.toNat / 8 % 64
  countBounded : a.bitcnt.toNat ≤ 2 ^ 64 - 8
  bufferWf : Memory.wf a.buf = true

/-- The invariant of the response port and of the record: a pending response has 32 or 64 bytes in all (30_encoding.md
R56), nothing counts as taken when none is pending, a faulted engine has no response pending (60_exceptions.md R144,
R145), and every completed response has 0, 32 or 64 bytes (30_encoding.md R56). -/
structure State.PortInv (s : State) : Prop where
  pendingLength : s.rspLeft = [] ∨ s.rspTaken.length + s.rspLeft.length = 32 ∨
    s.rspTaken.length + s.rspLeft.length = 64
  noneTaken : s.rspLeft = [] → s.rspTaken = []
  faultSilent : s.fault ≠ .none → s.rspLeft = []
  recordedLengths : ∀ r ∈ s.responses, r.length = 0 ∨ r.length = 32 ∨ r.length = 64

/-- The invariant every step keeps. -/
structure State.Inv (s : State) : Prop where
  arch : s.arch.Inv
  port : s.PortInv

/-- A run that ends in this state is clean (70_reset_and_hazards.md R170). -/
def State.clean (s : State) : Prop := s.fault = .none

/-- No response is pending and the engine is not faulted: the next command presented has its effect
(30_encoding.md R63, 60_exceptions.md R145). -/
def State.ready (s : State) : Prop := s.fault = .none ∧ s.rspLeft = [] ∧ s.rspTaken = []

end Sys2Proof.Machine
end

