-- ==== Sys2Proof/Certificates/Slice0/Obligations.lean ====
section
/-! DEFINITION. The statements for the provers. Each docstring names the rule of spec/ it formalises.

Four conventions run through them. (1) The field `responses` is the model's record of "the list of responses, in order"
(70_reset_and_hazards.md R170): a command with an empty response adds `[]` to it, a longer response is added when the
host has taken its last byte (log 5). (2) `issue` is what the engine does with a command word, `exec` what a decoded
command does, `step` one sampling of the ports, `transact` a command word with its whole response taken. (3) Word values
are compared as integers through `toNat` where the rule is written in integers. (4) A statement about `exec` or `issue`
that does not ask for an empty response port holds with a response pending too, where no step issues a command: there it
is the model's choice (log 21). -/

open Sys2Proof Sys2Proof.Machine

/-! Encoding. -/

/-- 30_encoding.md R51: a word is the command of a row exactly when `w & mask = match`, for the four rows of the opcode
map; the operand of ABSORB is the byte `cmd[7:0]`. -/
def Obligations.DecodeFollowsOpcodeMap : Prop :=
  (∀ w, decode w = some .init ↔ w &&& 0xFFFF#16 = 0x0100#16) ∧
  (∀ w b, decode w = some (.absorb b) ↔ w &&& 0xFF00#16 = 0x0200#16 ∧ b.toNat = w.toNat % 256) ∧
  (∀ w, decode w = some .digest ↔ w &&& 0xFFFF#16 = 0x0300#16) ∧
  (∀ w, decode w = some .digesthex ↔ w &&& 0xFFFF#16 = 0x0400#16) ∧
  (∀ w i, decode w = some i → ∃ r ∈ opcodeMap, r.mnemonic = mnemonicOf i ∧ r.holds w = true)

/-- Decoding the word of any well-formed command gives the command back with its operand, no two commands share a word,
and the words of commands are exactly the legal ones (30_encoding.md R51, R53, R55). -/
def Obligations.DecodeAndEncodeAgree : Prop :=
  (∀ i, i.wellFormed = true → decode (encode i) = some i) ∧
  (∀ w i, decode w = some i → encode i = w ∧ i.wellFormed = true) ∧
  (∀ w, (decode w).isSome = true ↔ CmdWord.legal w = true)

/-- Words of 30_encoding.md R51 written out from the encodings, and words of R53 that are no command. -/
def Obligations.WrittenWordsDecode : Prop :=
  decode 0b0000000100000000#16 = some .init ∧
  decode 0b0000001001100001#16 = some (.absorb 0x61#8) ∧
  decode 0b0000001011111111#16 = some (.absorb 0xff#8) ∧
  decode 0b0000001100000000#16 = some .digest ∧
  decode 0b0000010000000000#16 = some .digesthex ∧
  decode 0b0000000000000000#16 = none ∧
  decode 0b0000001100000001#16 = none ∧
  decode 0b0000010100000000#16 = none

/-- 30_encoding.md R53 and 60_exceptions.md R142: the illegal words are those with `op = 0x00`, with `op >= 0x05`, or
with `op` 0x01, 0x03 or 0x04 and `data != 0x00`; exactly 259 words are legal; an illegal word given to an unfaulted
engine records ILLEGAL_CMD and has no other effect (its response is empty). -/
def Obligations.IllegalWordsRaiseIllegalCmd : Prop :=
  (∀ w : CmdWord, decode w = none ↔
    (w.toNat / 256 = 0 ∨ w.toNat / 256 ≥ 5 ∨
      ((w.toNat / 256 = 1 ∨ w.toNat / 256 = 3 ∨ w.toNat / 256 = 4) ∧ w.toNat % 256 ≠ 0))) ∧
  (∃ l : List CmdWord, l.Nodup ∧ l.length = 259 ∧ ∀ w, w ∈ l ↔ (decode w).isSome = true) ∧
  (∀ (w : CmdWord) (s : State), s.fault = .none → decode w = none →
    issue w s = .next { s with fault := .illegalCmd, responses := s.responses ++ [[]] })

/-- 30_encoding.md R57 to R59: a program assembles to the words of its lines in order; the commands, `.word`, UPDATE,
HASH and HASHHEX assemble to the words the notation states; an ill-formed line is refused. A byte operand may be a
character; UPDATE of a list, of a repeat and of a quoted string is one ABSORB for each byte, in order. (The abstract
form of a line, and the bound to printable ASCII, are the model's choice, log 14.) -/
def Obligations.AssemblerEmitsTheStatedWords : Prop :=
  (∀ p q : List SrcLine, assemble (p ++ q) =
    (match assemble p, assemble q with
     | some x, some y => some (x ++ y)
     | _, _ => none)) ∧
  (∀ p : List SrcLine, (assemble p).isSome = true ↔ ∀ l ∈ p, l.wf = true) ∧
  assemble [.init] = some [0x0100#16] ∧
  assemble [.digest] = some [0x0300#16] ∧
  assemble [.digesthex] = some [0x0400#16] ∧
  assemble [.comment] = some [] ∧
  (∀ n, n < 256 → assemble [.absorb (.num n)] = some [BitVec.ofNat 16 (0x0200 + n)]) ∧
  (∀ c : Char, 0x20 ≤ c.toNat → c.toNat ≤ 0x7E →
    assemble [.absorb (.chr c)] = some [BitVec.ofNat 16 (0x0200 + c.toNat)]) ∧
  (∀ n, n < 65536 → assemble [.word n] = some [BitVec.ofNat 16 n]) ∧
  (∀ bs : List SrcByte, assemble [.update (.list bs)] = assemble (bs.map .absorb)) ∧
  (∀ (n : Nat) (b : SrcByte), b.wf = true →
    assemble [.update (.rep n b)] = assemble (List.replicate n (.absorb b))) ∧
  (∀ cs : List Char, assemble [.update (.str cs)] = assemble (cs.map fun c => .absorb (.chr c))) ∧
  (∀ u : SrcBytes, u.wf = true →
    assemble [.update u] = some (u.value.map fun b => BitVec.ofNat 16 (0x0200 + b.toNat)) ∧
    assemble [.hash u] = assemble [.init, .update u, .digest] ∧
    assemble [.hashhex u] = assemble [.init, .update u, .digesthex])

/-! Word arithmetic. -/

/-- 40_word_ops.md R71: `add32` of several words is their exact sum modulo `2^32`; reducing after each addition gives
the same word, which R71 marks as derived; operand order is irrelevant. For fewer than two operands, which R71 does not
give, this is the model's choice (log 11). -/
def Obligations.Add32IsTheSumModulo : Prop :=
  (∀ xs : List Word, (add32 xs).toNat = (xs.map BitVec.toNat).sum % 2 ^ 32) ∧
  (∀ (x y : Word) (zs : List Word), add32 (x :: y :: zs) = add32 (add32 [x, y] :: zs)) ∧
  (∀ xs ys : List Word, xs.Perm ys → add32 xs = add32 ys)

/-- 40_word_ops.md R72: the formula of `rotr`, and bit `j` of the result is bit `(j + n) mod 32` of the operand. For the
amounts 0 and 32 and above, which the engine never uses, this is the model's choice (log 11); R72 suggests it. -/
def Obligations.RotrMovesBits : Prop :=
  (∀ (x : Word) (n : Nat), 1 ≤ n → n ≤ 31 →
    (rotr x n).toNat = ((x.toNat >>> n) ||| (x.toNat <<< (32 - n))) % 2 ^ 32) ∧
  (∀ (x : Word) (n j : Nat), j < 32 → (rotr x n).getLsbD j = x.getLsbD ((j + n) % 32))

/-- 40_word_ops.md R73 and R75: `shr` is the division by `2^n`, `~x` is `2^32 - 1 - x`. -/
def Obligations.ShrAndComplementAsIntegers : Prop :=
  (∀ (x : Word) (n : Nat), (shr x n).toNat = x.toNat / 2 ^ n) ∧
  (∀ x : Word, (not32 x).toNat = 2 ^ 32 - 1 - x.toNat)

/-- 40_word_ops.md R76 to R79: the four sigma functions, bit by bit: each result bit is the exclusive-or of the three
operand bits the definitions name (for the two schedule functions the third is a shift, which brings in zeros). -/
def Obligations.SigmaFunctionsBitByBit : Prop :=
  ∀ (x : Word) (j : Nat), j < 32 →
    (ssig0 x).getLsbD j =
      ((x.getLsbD ((j + 7) % 32) ^^ x.getLsbD ((j + 18) % 32)) ^^ (decide (j + 3 < 32) && x.getLsbD (j + 3))) ∧
    (ssig1 x).getLsbD j =
      ((x.getLsbD ((j + 17) % 32) ^^ x.getLsbD ((j + 19) % 32)) ^^ (decide (j + 10 < 32) && x.getLsbD (j + 10))) ∧
    (bsig0 x).getLsbD j =
      ((x.getLsbD ((j + 2) % 32) ^^ x.getLsbD ((j + 13) % 32)) ^^ x.getLsbD ((j + 22) % 32)) ∧
    (bsig1 x).getLsbD j =
      ((x.getLsbD ((j + 6) % 32) ^^ x.getLsbD ((j + 11) % 32)) ^^ x.getLsbD ((j + 25) % 32))

/-- 40_word_ops.md R80 and R81: bit `j` of `Ch(e,f,g)` is bit `j` of `f` where bit `j` of `e` is 1 and of `g` where it
is 0; bit `j` of `Maj(a,b,c)` is the majority of bits `j` of the three operands. -/
def Obligations.ChSelectsAndMajVotes : Prop :=
  (∀ (e f g : Word) (j : Nat), (ch e f g).getLsbD j = if e.getLsbD j then f.getLsbD j else g.getLsbD j) ∧
  (∀ (a b c : Word) (j : Nat), (maj a b c).getLsbD j =
    decide (2 ≤ (a.getLsbD j).toNat + (b.getLsbD j).toNat + (c.getLsbD j).toNat))

/-! Constant tables. -/

/-- 10_state.md R16: `IV[j]` is the first 32 bits of the fractional part of the square root of the `j`-th prime,
`isqrt(p_j * 2^64) mod 2^32`, the primes being 2, 3, 5, 7, 11, 13, 17, 19. -/
def Obligations.IvIsFromSquareRoots : Prop :=
  ∀ j < 8, ∃ r : Nat,
    r ^ 2 ≤ [2, 3, 5, 7, 11, 13, 17, 19].getD j 0 * 2 ^ 64 ∧
    [2, 3, 5, 7, 11, 13, 17, 19].getD j 0 * 2 ^ 64 < (r + 1) ^ 2 ∧
    (iv.word j).toNat = r % 2 ^ 32

/-- 10_state.md R17: `K[i]` is the first 32 bits of the fractional part of the cube root of the `i`-th prime,
`icbrt(p_i * 2^96) mod 2^32`, the primes being the first 64, from 2 to 311. -/
def Obligations.KIsFromCubeRoots : Prop :=
  kTable.length = 64 ∧ primes.length = 64 ∧ primes.Pairwise (· < ·) ∧
  (∀ n, n ≤ 311 → (n ∈ primes ↔ n.Prime)) ∧
  ∀ i < 64, ∃ r : Nat,
    r ^ 3 ≤ primes.getD i 0 * 2 ^ 96 ∧ primes.getD i 0 * 2 ^ 96 < (r + 1) ^ 3 ∧
    (kConst i).toNat = r % 2 ^ 32

/-! Byte order. -/

/-- 20_memory.md R31, R33 and R37: the word at offset `4t` of a block is the four bytes from there, first byte most
significant; byte `4j + k` of a serialised chaining value is bits `31-8k` to `24-8k` of word `j`, 32 bytes in all; an
append of `n` bytes of `v` keeps the sequence and adds `v[8n-1:8n-8]` first and `v[7:0]` last. -/
def Obligations.WordsAndBytesAreBigEndian : Prop :=
  (∀ (blk : List Byte) (t : Nat), blk.length = 64 → t < 16 →
    (memRead4 blk (4 * t)).toNat =
      (blk.getD (4 * t) 0#8).toNat * 2 ^ 24 + (blk.getD (4 * t + 1) 0#8).toNat * 2 ^ 16 +
      (blk.getD (4 * t + 2) 0#8).toNat * 2 ^ 8 + (blk.getD (4 * t + 3) 0#8).toNat) ∧
  (∀ c : Chain, (serialise c).length = 32) ∧
  (∀ (c : Chain) (j m : Nat), j < 8 → m < 4 →
    (serialise c).getD (4 * j + m) 0#8 = (c.word j).extractLsb' (24 - 8 * m) 8) ∧
  (∀ (s : List Byte) (n v : Nat), (memWrite s n v).length = s.length + n ∧ (memWrite s n v).take s.length = s ∧
    ∀ m < n, ((memWrite s n v).getD (s.length + m) 0#8).toNat = v / 2 ^ (8 * (n - 1 - m)) % 256)

/-- 20_memory.md R32: bytes 56 to 63 of the last padded block are the 64-bit length, most significant byte first; as
words, `W[14]` is its upper half and `W[15]` its lower half. -/
def Obligations.LengthFieldIsBigEndian : Prop :=
  ∀ (b : List Byte) (l : Count), b.length ≤ 63 →
    ∃ last, (paddingBlocks b l).getLast? = some last ∧ last.length = 64 ∧
      (∀ m < 8, last.getD (56 + m) 0#8 = l.extractLsb' (56 - 8 * m) 8) ∧
      (schedule last).getD 14 0#32 = l.extractLsb' 32 32 ∧ (schedule last).getD 15 0#32 = l.extractLsb' 0 32

/-! Compression. -/

/-- 42_compression.md R101 and R102: the schedule of a block has 64 words; the first 16 are the block's big-endian words
and the others follow the recurrence. -/
def Obligations.ScheduleIsBlockThenRecurrence : Prop :=
  ∀ blk : List Byte, blk.length = 64 →
    (schedule blk).length = 64 ∧
    (∀ t < 16, ((schedule blk).getD t 0#32).toNat =
      (blk.getD (4 * t) 0#8).toNat * 2 ^ 24 + (blk.getD (4 * t + 1) 0#8).toNat * 2 ^ 16 +
      (blk.getD (4 * t + 2) 0#8).toNat * 2 ^ 8 + (blk.getD (4 * t + 3) 0#8).toNat) ∧
    (∀ i, 16 ≤ i → i < 64 → (schedule blk).getD i 0#32 =
      add32 [ssig1 ((schedule blk).getD (i - 2) 0#32), (schedule blk).getD (i - 7) 0#32,
        ssig0 ((schedule blk).getD (i - 15) 0#32), (schedule blk).getD (i - 16) 0#32])

/-- 42_compression.md R103: keeping only a window of the 16 most recent schedule words and computing `W[i]` in the same
step as round `i` gives the same result, word for word. -/
def Obligations.WindowedScheduleGivesTheSameResult : Prop :=
  ∀ (hin : Chain) (blk : List Byte), compressWindow hin blk = compress hin blk

/-- 42_compression.md R105: `t1`, `t2` and the eight new values of a round; the assignments executed one after another
in DOC's order give the same, and in the opposite order they do not. -/
def Obligations.RoundTransfersTheRegisters : Prop :=
  (∀ (v : Vars) (ki wi : Word), ∃ t1 t2 : Word,
    t1.toNat = (v.h.toNat + (bsig1 v.e).toNat + (ch v.e v.f v.g).toNat + ki.toNat + wi.toNat) % 2 ^ 32 ∧
    t2.toNat = ((bsig0 v.a).toNat + (maj v.a v.b v.c).toNat) % 2 ^ 32 ∧
    (roundStep v ki wi).h = v.g ∧ (roundStep v ki wi).g = v.f ∧ (roundStep v ki wi).f = v.e ∧
    (roundStep v ki wi).e.toNat = (v.d.toNat + t1.toNat) % 2 ^ 32 ∧
    (roundStep v ki wi).d = v.c ∧ (roundStep v ki wi).c = v.b ∧ (roundStep v ki wi).b = v.a ∧
    (roundStep v ki wi).a.toNat = (t1.toNat + t2.toNat) % 2 ^ 32) ∧
  (∀ (v : Vars) (ki wi : Word), roundInOrder docOrder v ki wi = roundStep v ki wi) ∧
  (∃ (v : Vars) (ki wi : Word), roundInOrder docOrder.reverse v ki wi ≠ roundStep v ki wi)

/-- 42_compression.md R104, R106, R107: the working variables start as the incoming chaining words, 64 rounds follow,
round `i` with `K[i]` and `W[i]` on the result of the one before, and each final variable is added modulo `2^32` to the
word it was loaded from. -/
def Obligations.CompressIsRoundsAndFeedForward : Prop :=
  ∀ (hin : Chain) (blk : List Byte), ∃ vs : Nat → Vars,
    vs 0 = ⟨hin.h0, hin.h1, hin.h2, hin.h3, hin.h4, hin.h5, hin.h6, hin.h7⟩ ∧
    (∀ i < 64, vs (i + 1) = roundStep (vs i) (kTable.getD i 0#32) ((schedule blk).getD i 0#32)) ∧
    (compress hin blk).h0.toNat = (hin.h0.toNat + (vs 64).a.toNat) % 2 ^ 32 ∧
    (compress hin blk).h1.toNat = (hin.h1.toNat + (vs 64).b.toNat) % 2 ^ 32 ∧
    (compress hin blk).h2.toNat = (hin.h2.toNat + (vs 64).c.toNat) % 2 ^ 32 ∧
    (compress hin blk).h3.toNat = (hin.h3.toNat + (vs 64).d.toNat) % 2 ^ 32 ∧
    (compress hin blk).h4.toNat = (hin.h4.toNat + (vs 64).e.toNat) % 2 ^ 32 ∧
    (compress hin blk).h5.toNat = (hin.h5.toNat + (vs 64).f.toNat) % 2 ^ 32 ∧
    (compress hin blk).h6.toNat = (hin.h6.toNat + (vs 64).g.toNat) % 2 ^ 32 ∧
    (compress hin blk).h7.toNat = (hin.h7.toNat + (vs 64).h.toNat) % 2 ^ 32

/-! INIT and ABSORB. -/

/-- 41_init_update.md R90: on an unfaulted engine INIT loads `IV`, empties `BUF`, clears `BITCNT`, writes nothing else
and responds with nothing; on a freshly reset engine it changes nothing, which R90 marks as derived (from R25), and INIT
twice is INIT once. -/
def Obligations.InitStartsAMessage : Prop :=
  (∀ s : State, s.fault = .none →
    exec .init s = .next { s with h := iv, buf := [], bitcnt := 0#64, responses := s.responses ++ [[]] }) ∧
  (∀ s t : State, s.arch = State.reset.arch → exec .init s = .next t → t.arch = s.arch) ∧
  (∀ s t u : State, s.fault = .none → exec .init s = .next t → exec .init t = .next u → u.arch = t.arch)

/-- 41_init_update.md R91: when the counter has no room, LEN_OVERFLOW is recorded and nothing else changes; otherwise the
byte is appended and `BITCNT` grows by exactly 8, and a byte that completes a block makes `H` the compression of the
whole buffer and empties it; nothing else is written and the response is empty. -/
def Obligations.AbsorbAppendsOrCompresses : Prop :=
  ∀ (s : State) (b : Byte), s.fault = .none →
    (s.bitcnt.toNat + 8 > 2 ^ 64 - 1 →
      exec (.absorb b) s = .next { s with fault := .lenOverflow, responses := s.responses ++ [[]] }) ∧
    (s.bitcnt.toNat + 8 ≤ 2 ^ 64 - 1 →
      ∃ n : Count, n.toNat = s.bitcnt.toNat + 8 ∧
        ((s.buf ++ [b]).length ≠ 64 →
          exec (.absorb b) s =
            .next { s with buf := s.buf ++ [b], bitcnt := n, responses := s.responses ++ [[]] }) ∧
        ((s.buf ++ [b]).length = 64 →
          exec (.absorb b) s =
            .next { s with
              h := compress s.h (s.buf ++ [b]), buf := [], bitcnt := n, responses := s.responses ++ [[]] }))

/-- 60_exceptions.md R143: with `FAULT = 0`, LEN_OVERFLOW is raised exactly by an ABSORB while `BITCNT + 8 > 2^64 - 1`,
by 10_state.md R14 exactly at `BITCNT = 2^64 - 8`; the byte is not appended, `BITCNT` does not wrap, `H` is not changed,
and only the code, 2, is recorded. -/
def Obligations.LenOverflowOnlyAtTheLastCount : Prop :=
  FaultCode.lenOverflow.code = 2#2 ∧
  (∀ (s : State) (b : Byte), s.fault = .none → s.bitcnt.toNat + 8 > 2 ^ 64 - 1 →
    exec (.absorb b) s = .next { s with fault := .lenOverflow, responses := s.responses ++ [[]] }) ∧
  (∀ s : State, s.arch.Inv → (s.bitcnt.toNat + 8 > 2 ^ 64 - 1 ↔ s.bitcnt.toNat = 2 ^ 64 - 8)) ∧
  (∀ (w : CmdWord) (s t : State), s.fault = .none → issue w s = .next t → t.fault = .lenOverflow →
    (∃ b, decode w = some (.absorb b)) ∧ s.bitcnt.toNat + 8 > 2 ^ 64 - 1)

/-- 41_init_update.md R93: `UPDATE s`, one ABSORB for each byte, reaches the architectural state of DOC's whole-sequence
`update(s)`; when the counter would overflow, the expansion absorbs the first `floor((2^64 - 8 - BITCNT) / 8)` bytes and
faults on the next one. -/
def Obligations.UpdateEqualsDocUpdate : Prop :=
  (∀ (s : State) (bs : List Byte), s.fault = .none → s.buf.length < 64 →
    s.bitcnt.toNat + 8 * bs.length ≤ 2 ^ 64 - 1 →
    ∃ t, runWords (updateWords bs) s = .next t ∧ t.arch = docUpdate bs s.arch) ∧
  (∀ (s : State) (bs : List Byte), s.fault = .none → s.buf.length < 64 → s.bitcnt.toNat % 8 = 0 →
    s.bitcnt.toNat + 8 * bs.length > 2 ^ 64 - 1 →
    ∃ t, runWords (updateWords bs) s = .next t ∧ t.arch =
      { docUpdate (bs.take ((2 ^ 64 - 8 - s.bitcnt.toNat) / 8)) s.arch with fault := .lenOverflow })

/-- 41_init_update.md R92: DOC's `update` appends the data, counts 8 bits for each byte and consumes complete blocks
from the front in order, so that the old buffer and the data are the consumed blocks followed by the new buffer, which
is shorter than 64 bytes. (With a fault recorded this is the model's choice, log 20.) -/
def Obligations.DocUpdateConsumesWholeBlocks : Prop :=
  ∀ (a : Arch) (data : List Byte), a.bitcnt.toNat + 8 * data.length ≤ 2 ^ 64 - 1 →
    (docUpdate data a).buf.length < 64 ∧
    (docUpdate data a).bitcnt.toNat = a.bitcnt.toNat + 8 * data.length ∧
    (docUpdate data a).fault = a.fault ∧
    ∃ blocks : List (List Byte), (∀ x ∈ blocks, x.length = 64) ∧
      a.buf ++ data = blocks.flatten ++ (docUpdate data a).buf ∧
      (docUpdate data a).h = blocks.foldl compress a.h

/-- 41_init_update.md R94 and R95: `UPDATE x; UPDATE y` and `UPDATE (x ++ y)` expand to the same command sequence; DOC's
`update` may be split anywhere, and the empty one changes nothing, while the counter has room; and after
`UPDATE x; UPDATE y`, behind any message `m` already absorbed (none, just after reset or INIT), DIGEST responds with the
digest of `m ++ x ++ y`. (R94 marks the equality of expansions as derived; of `update` with a fault recorded the clauses
are the model's choice, log 20.) -/
def Obligations.UpdateSplitsAnywhere : Prop :=
  (∀ x y : List Byte, updateWords x ++ updateWords y = updateWords (x ++ y)) ∧
  (∀ (a : Arch) (x y : List Byte), a.bitcnt.toNat + 8 * (x.length + y.length) ≤ 2 ^ 64 - 1 →
    docUpdate y (docUpdate x a) = docUpdate (x ++ y) a) ∧
  (∀ a : Arch, a.buf.length < 64 → docUpdate [] a = a) ∧
  (∀ (s : State) (m x y : List Byte), s.arch = archOfMessage m →
    8 * (m.length + x.length + y.length) ≤ 2 ^ 64 - 8 →
    ∃ t, andThen (runWords (updateWords x) s) (runWords (updateWords y)) = .next t ∧
      exec .digest t = .next { t with rspLeft := digestOfMessage (m ++ x ++ y), rspTaken := [] })

/-- 41_init_update.md R96: after reset, or after INIT on an unfaulted engine, the architectural state is a function of
the message alone: however ABSORB, DIGEST and DIGESTHEX commands follow, it is the state the rule gives for the bytes
absorbed. -/
def Obligations.StateIsAFunctionOfTheMessage : Prop :=
  ∀ (s : State) (is : List Instr), .init ∉ is → 8 * (absorbedBytes is).length ≤ 2 ^ 64 - 8 →
    (s.arch = State.reset.arch →
      ∃ t, runWords (is.map encode) s = .next t ∧ t.arch = archOfMessage (absorbedBytes is)) ∧
    (s.fault = .none →
      ∃ t, runWords (encode .init :: is.map encode) s = .next t ∧ t.arch = archOfMessage (absorbedBytes is))

/-- 20_memory.md R43: the bytes of a message are compressed in arrival order and each exactly once. After the ABSORB
words of the bytes `m`, from the reset state's architectural part or behind an INIT on an unfaulted engine: `m` is its
consumed blocks, 64 bytes each, followed by what is left in `BUF`; `H` is the compression of those blocks in order from
`IV`; and consumed byte `p` is byte `p mod 64` of block `p div 64`. (R43 marks this as derived.) -/
def Obligations.EachMessageByteIsCompressedOnce : Prop :=
  ∀ (s : State) (m : List Byte) (ws : List CmdWord), 8 * m.length ≤ 2 ^ 64 - 8 →
    ((s.arch = State.reset.arch ∧ ws = m.map fun b => encode (.absorb b)) ∨
     (s.fault = .none ∧ ws = encode .init :: m.map fun b => encode (.absorb b))) →
    ∃ t, runWords ws s = .next t ∧ t.fault = .none ∧ t.buf.length < 64 ∧
      m = (List.range (m.length / 64)).flatMap (messageBlock m) ++ t.buf ∧
      (∀ q < m.length / 64, (messageBlock m q).length = 64) ∧
      t.h = ((List.range (m.length / 64)).map (messageBlock m)).foldl compress iv ∧
      (∀ p, p < 64 * (m.length / 64) → (messageBlock m (p / 64)).getD (p % 64) 0#8 = m.getD p 0#8)

/-! DIGEST and DIGESTHEX. -/

/-- 43_finalize.md R128: the padding in closed form. DIGEST on an unfaulted engine responds with the serialised result
of compressing, from `H`, the one block (`FILL <= 55`) or the two blocks (`FILL >= 56`) the rule gives, each of 64
bytes; message and padding together have the least multiple of 64 bytes that is at least `N + 9`. -/
def Obligations.DigestCompressesThePaddingBlocks : Prop :=
  (∀ s : State, s.fault = .none → s.buf.length ≤ 63 →
    exec .digest s =
      .next { s with rspLeft := serialise ((paddingBlocks s.buf s.bitcnt).foldl compress s.h), rspTaken := [] }) ∧
  (∀ (b : List Byte) (l : Count), b.length ≤ 63 →
    (∀ x ∈ paddingBlocks b l, x.length = 64) ∧
    (paddingBlocks b l).length = (if b.length ≤ 55 then 1 else 2)) ∧
  (∀ (b : List Byte) (l : Count) (n : Nat), b.length ≤ 63 → n % 64 = b.length →
    n + 9 ≤ 64 * (n / 64 + (paddingBlocks b l).length) ∧
    ∀ m, 64 ∣ m → n + 9 ≤ m → 64 * (n / 64 + (paddingBlocks b l).length) ≤ m)

/-- 43_finalize.md R129 and R130: DIGESTHEX responds with 64 bytes, the ASCII codes of the lowercase hexadecimal digits
of the 32 bytes DIGEST responds with in this state, high four bits first. -/
def Obligations.DigesthexRendersTheDigest : Prop :=
  ∀ s : State, s.fault = .none → ∃ d x : List Byte,
    exec .digest s = .next { s with rspLeft := d, rspTaken := [] } ∧
    exec .digesthex s = .next { s with rspLeft := x, rspTaken := [] } ∧
    d.length = 32 ∧ x.length = 64 ∧
    ∀ m < 32,
      (x.getD (2 * m) 0#8).toNat =
        (if (d.getD m 0#8).toNat / 16 ≤ 9 then 0x30 + (d.getD m 0#8).toNat / 16
         else 0x61 + ((d.getD m 0#8).toNat / 16 - 10)) ∧
      (x.getD (2 * m + 1) 0#8).toNat =
        (if (d.getD m 0#8).toNat % 16 ≤ 9 then 0x30 + (d.getD m 0#8).toNat % 16
         else 0x61 + ((d.getD m 0#8).toNat % 16 - 10))

/-- 43_finalize.md R127: DIGEST and DIGESTHEX leave `H`, `BUF`, `BITCNT` and `FAULT` as they were; DIGEST repeated gives
the same bytes, and DIGEST then DIGESTHEX give the same digest in two encodings; a DIGEST or DIGESTHEX issued in the
middle of an absorption leaves the state, and so every later digest, as it would have been without. -/
def Obligations.DigestLeavesTheLiveState : Prop :=
  (∀ s t : State, exec .digest s = .next t → t.arch = s.arch) ∧
  (∀ s t : State, exec .digesthex s = .next t → t.arch = s.arch) ∧
  (∀ s t : State, s.fault = .none → transact (encode .digest) s = .next t →
    t.arch = s.arch ∧
    ∃ d, exec .digest s = .next { s with rspLeft := d, rspTaken := [] } ∧
      t.responses = s.responses ++ [d] ∧
      exec .digest t = .next { t with rspLeft := d, rspTaken := [] } ∧
      exec .digesthex t = .next { t with rspLeft := hexBytes d, rspTaken := [] }) ∧
  (∀ (s t u : State) (x y : List Byte) (i : Instr), s.rspLeft = [] → i = .digest ∨ i = .digesthex →
    runWords (updateWords x ++ encode i :: updateWords y) s = .next t →
    runWords (updateWords (x ++ y)) s = .next u → t.arch = u.arch)

/-- 43_finalize.md R133: the response of DIGEST as a function of the message: the padding of `z` zero bytes, `z` the
least number that makes the padded length a multiple of 64, and the chain of compressions from `IV` over the padded
message. -/
def Obligations.DigestIsAFunctionOfTheMessage : Prop :=
  (∀ (s : State) (m : List Byte), s.arch = archOfMessage m → 8 * m.length ≤ 2 ^ 64 - 8 →
    exec .digest s = .next { s with rspLeft := digestOfMessage m, rspTaken := [] }) ∧
  (∀ n : Nat, (n + 1 + padZeros n + 8) % 64 = 0 ∧ ∀ z, (n + 1 + z + 8) % 64 = 0 → padZeros n ≤ z)

/-- 43_finalize.md R131: `HASH s` and `HASHHEX s` from any unfaulted state with no response pending, whatever message
was in progress: the last response is the digest of `s`, all others are empty, and the state left behind is that of the
message `s`. (The list of responses is the model's record, log 5; R133 marks the digest's form as derived.) -/
def Obligations.HashIsInitUpdateDigest : Prop :=
  ∀ (s : State) (m : List Byte), s.fault = .none → s.rspLeft = [] → 8 * m.length ≤ 2 ^ 64 - 8 →
    (∃ t, runWords (hashWords m) s = .next t ∧ t.arch = archOfMessage m ∧
      t.responses = s.responses ++ List.replicate (m.length + 1) [] ++ [digestOfMessage m]) ∧
    (∃ t, runWords (hashhexWords m) s = .next t ∧ t.arch = archOfMessage m ∧
      t.responses = s.responses ++ List.replicate (m.length + 1) [] ++ [hexBytes (digestOfMessage m)])

/-- 30_encoding.md R56: the length of every response: 32 bytes for an executed DIGEST, 64 characters of `0..9a..f` for
an executed DIGESTHEX, and empty for everything else, a faulted engine and a faulting command among it. That a character
is one byte with its ASCII code is presumed (log 19; 43_finalize.md R130 marks it as general knowledge). -/
def Obligations.ResponsesHaveFixedLength : Prop :=
  ∀ (w : CmdWord) (s : State), s.rspLeft = [] → ∃ t, issue w s = .next t ∧
    (s.fault = .none → decode w = some .digest →
      t.rspLeft.length = 32 ∧ t.rspTaken = [] ∧ t.responses = s.responses) ∧
    (s.fault = .none → decode w = some .digesthex →
      t.rspLeft.length = 64 ∧ t.rspTaken = [] ∧ t.responses = s.responses ∧
      ∀ c ∈ t.rspLeft, (0x30 ≤ c.toNat ∧ c.toNat ≤ 0x39) ∨ (0x61 ≤ c.toNat ∧ c.toNat ≤ 0x66)) ∧
    (s.fault ≠ .none ∨ (decode w ≠ some .digest ∧ decode w ≠ some .digesthex) →
      t.rspLeft = [] ∧ t.responses = s.responses ++ [[]])

/-- 20_memory.md R42 and 43_finalize.md R132: what a command word does to the architectural state, and the response it
gives, depend on the architectural state alone, not on earlier responses or on what the host will drive. -/
def Obligations.EngineSeesOnlyItsArchitecturalState : Prop :=
  ∀ (w : CmdWord) (s s' t t' : State), s.arch = s'.arch → s.rspLeft = [] → s'.rspLeft = [] →
    transact w s = .next t → transact w s' = .next t' →
    t.arch = t'.arch ∧ ∃ r, t.responses = s.responses ++ [r] ∧ t'.responses = s'.responses ++ [r]

/-! Faults. -/

/-- 60_exceptions.md R144: a command that raises a fault records the code and does nothing else: the chaining value, the
buffer and the counter keep their values, the response is empty and no digest byte is sent. -/
def Obligations.FaultEntryRecordsOnlyTheCode : Prop :=
  ∀ (w : CmdWord) (s t : State), s.fault = .none → issue w s = .next t → t.fault ≠ .none →
    t = { s with fault := t.fault, responses := s.responses ++ [[]] } ∧
    (t.fault = .illegalCmd ↔ decode w = none)

/-- 60_exceptions.md R145: while `FAULT != 0` every command word, legal or not, changes no state, not even `FAULT`, and
has the empty response; no command revives a faulted engine, INIT among them. -/
def Obligations.FaultedEngineIgnoresEveryWord : Prop :=
  (∀ (w : CmdWord) (s : State), s.fault ≠ .none →
    issue w s = .next { s with responses := s.responses ++ [[]] }) ∧
  (∀ (i : Instr) (s : State), s.fault ≠ .none →
    exec i s = .next { s with responses := s.responses ++ [[]] })

/-- 60_exceptions.md R146: a step out of a faulted state keeps the first code unless `rst` is sampled high, and then
clears it. -/
def Obligations.OnlyResetClearsTheFault : Prop :=
  ∀ s t : State, s.fault ≠ .none → step s = .next t →
    ((∃ p rest, s.inputs = p :: rest ∧ p.rst = true) → t.fault = .none) ∧
    ((¬ ∃ p rest, s.inputs = p :: rest ∧ p.rst = true) → t.arch = s.arch)

/-- 60_exceptions.md R147: the order of checks for one command word presented while no response is pending: reset first,
then the recorded fault, then an illegal word, then the counter overflow of ABSORB, then the command. (That reset keeps
the record of completed responses is the model's choice, log 5.) -/
def Obligations.ChecksAreMadeInOrder : Prop :=
  ∀ (s : State) (p : HostInput) (rest : List HostInput) (w : CmdWord),
    s.inputs = p :: rest → p.cmd = some w → s.rspLeft = [] →
    step s =
      (if p.rst then .next (State.hardReset { s with inputs := rest })
       else if s.fault ≠ .none then .next { s with inputs := rest, responses := s.responses ++ [[]] }
       else if CmdWord.legal w = false then
         .next { s with inputs := rest, fault := .illegalCmd, responses := s.responses ++ [[]] }
       else if w.toNat / 256 = 2 ∧ s.bitcnt.toNat + 8 > 2 ^ 64 - 1 then
         .next { s with inputs := rest, fault := .lenOverflow, responses := s.responses ++ [[]] }
       else match decode w with
         | some i => exec i { s with inputs := rest }
         | none => .next s)

/-- 60_exceptions.md R140: no sequence of legal commands raises a fault while the message stays shorter than `2^61`
bytes, that is, as long as it is shorter after each of the commands: INIT, ABSORB, DIGEST and DIGESTHEX all complete. -/
def Obligations.LegalCommandsRaiseNoFault : Prop :=
  ∀ (s : State) (ws : List CmdWord), s.fault = .none → s.arch.Inv →
    (∀ w ∈ ws, CmdWord.legal w = true) →
    (∀ k ≤ ws.length, messageLength (s.bitcnt.toNat / 8) (ws.take k) < 2 ^ 61) →
    ∃ t, runWords ws s = .next t ∧ t.fault = .none

/-- 10_state.md R15 and 30_encoding.md R62: the `fault` output shows 0, 1 or 2 for the three contents of the register. -/
def Obligations.FaultOutputShowsTheCode : Prop :=
  ∀ s : State,
    (s.fault = .none → s.faultOut = 0#2) ∧ (s.fault = .illegalCmd → s.faultOut = 1#2) ∧
    (s.fault = .lenOverflow → s.faultOut = 2#2) ∧ s.faultOut ≠ 3#2 ∧ (s.clean ↔ s.faultOut = 0#2)

/-! Reset, ports and the step. -/

/-- 10_state.md R25: every piece of architectural state after reset. -/
def Obligations.ResetStateHasTheStatedValues : Prop :=
  State.reset.h = ⟨0x6a09e667#32, 0xbb67ae85#32, 0x3c6ef372#32, 0xa54ff53a#32, 0x510e527f#32, 0x9b05688c#32,
    0x1f83d9ab#32, 0x5be0cd19#32⟩ ∧
  State.reset.buf = [] ∧ State.reset.fill = 0 ∧ State.reset.bitcnt = 0#64 ∧ State.reset.fault = .none

/-- 70_reset_and_hazards.md R160 and R162: a sample with `rst` high gives the reset state whatever the state was and
whatever else is driven; response bytes not yet taken are dropped and the abandoned response is not recorded;
`cmd_ready` is low. Two clauses are the model's choice: the record of completed responses stays (log 5), and a response
byte offered to the host in the very sample of the reset is not taken, even the last one, so that its response is not
recorded (log 7). -/
def Obligations.ResetOverridesEverything : Prop :=
  ∀ (s : State) (p : HostInput) (rest : List HostInput), s.inputs = p :: rest → p.rst = true →
    step s = .next { State.reset with responses := s.responses, inputs := rest } ∧ s.cmdReady true = false

/-- 70_reset_and_hazards.md R161: reset and INIT leave the same `H`, `BUF` and `BITCNT`; INIT is ignored on a faulted
engine where reset clears the fault. -/
def Obligations.ResetAndInitDifferOnlyInTheFault : Prop :=
  (∀ s t : State, s.fault = .none → exec .init s = .next t → t.arch = s.hardReset.arch) ∧
  (∀ s t : State, s.fault ≠ .none → exec .init s = .next t →
    t.arch = s.arch ∧ s.hardReset.fault = .none ∧ t.fault ≠ .none)

/-- 30_encoding.md R54, R55, R63: when the sample in front presents a command word, `rst` is low, no response is pending
and the engine is not faulted, the step is `exec` of the decoded command on the state with the sample used. The second
part says the same of the host's placing of a word. -/
def Obligations.StepRunsTheDecodedCommand : Prop :=
  (∀ (s : State) (p : HostInput) (rest : List HostInput) (w : CmdWord) (i : Instr),
    s.inputs = p :: rest → p.rst = false → p.cmd = some w → s.rspLeft = [] → s.fault = .none →
    decode w = some i → step s = exec i { s with inputs := rest }) ∧
  (∀ (s : State) (n : Nat) (i : Instr), s.fault = .none → decodeTableWord 16 n = some i →
    step (s.withFetchWord 16 n) = exec i { s with rspLeft := [], rspTaken := [] })

/-- 30_encoding.md R63: while a response is pending, `cmd_ready` is low and a command presented is not issued; a byte is
taken when `rsp_ready` is high, in index order, and otherwise the engine waits and loses nothing; `rsp_last` marks the
last byte, with which the response is complete. -/
def Obligations.HandshakeHoldsCommandsBack : Prop :=
  ∀ (s : State) (p : HostInput) (rest : List HostInput) (b : Byte) (more : List Byte),
    s.inputs = p :: rest → p.rst = false → s.rspLeft = b :: more →
    s.cmdReady false = false ∧ s.rspValid = true ∧ s.rspByte = some b ∧ s.rspLast = some (decide (more = [])) ∧
    (p.rspReady = false → step s = .next { s with inputs := rest }) ∧
    (p.rspReady = true → more ≠ [] →
      step s = .next { s with inputs := rest, rspLeft := more, rspTaken := s.rspTaken ++ [b] }) ∧
    (p.rspReady = true → more = [] →
      step s = .next { s with
        inputs := rest, rspLeft := [], rspTaken := [], responses := s.responses ++ [s.rspTaken ++ [b]] })

/-- 70_reset_and_hazards.md R165 and 20_memory.md R39: presenting a command word and then taking as many bytes as its
response has brings the machine, step by step, exactly where the whole transaction does. -/
def Obligations.CommandScriptIsOneTransaction : Prop :=
  ∀ (w : CmdWord) (s u : State) (rest : List HostInput), s.rspLeft = [] → s.rspTaken = [] →
    issue w { s with inputs := rest } = .next u →
    Sys2Proof.core.run (1 + u.rspLeft.length)
        { s with inputs := commandScript w u.rspLeft.length ++ rest } =
      transact w { s with inputs := rest }

/-- 70_reset_and_hazards.md R170: with nothing driven the engine is idle and keeps its state; a sample that presents
nothing while no response is pending changes nothing but that it is used (log 3). -/
def Obligations.IdleEngineKeepsItsState : Prop :=
  (∀ s : State, s.inputs = [] → step s = .next s) ∧
  (∀ (s : State) (p : HostInput) (rest : List HostInput), s.inputs = p :: rest → p.rst = false → p.cmd = none →
    s.rspLeft = [] → step s = .next { s with inputs := rest })

/-- 42_compression.md R109, 60_exceptions.md R144, R145 and 70_reset_and_hazards.md R167, R170: every command completes
and no state stops the machine: every step, and every command word, answers a next state. That fault entry, an ignored
word and waiting are next states is the model's reading (log 16), and that an idle step is one is its choice (log 3). -/
def Obligations.EveryStepAnswersANextState : Prop :=
  (∀ s : State, ∃ t, step s = .next t) ∧ (∀ (w : CmdWord) (s : State), ∃ t, issue w s = .next t)

/-! Invariants and whole-machine rules. -/

/-- 10_state.md R14, as an invariant of the step: from every state whose architectural part meets (a) to (d), not only
from reachable ones, a step leads to such a state. -/
def Obligations.StepKeepsTheArchitecturalInvariant : Prop :=
  ∀ s t : State, s.arch.Inv → step s = .next t → t.arch.Inv

/-- 30_encoding.md R56, R63 and 60_exceptions.md R145, as an invariant of the step: a pending response has 32 or 64
bytes, a faulted engine has none, and every completed response has 0, 32 or 64 bytes. -/
def Obligations.StepKeepsThePortInvariant : Prop :=
  ∀ s t : State, s.PortInv → step s = .next t → t.PortInv

/-- The reset state meets both invariants (10_state.md R14, R25). -/
def Obligations.ResetMeetsTheInvariant : Prop := State.reset.Inv

/-- 10_state.md R14: in every state reached from reset by any sequence of port samples, `BITCNT mod 8 = 0`,
`FILL = BITCNT[8:3]`, `BITCNT <= 2^64 - 8` and `FILL <= 63`. -/
def Obligations.ReachableStatesMeetTheInvariant : Prop :=
  ∀ (n : Nat) (ins : List HostInput) (t : State),
    Sys2Proof.core.run n { State.reset with inputs := ins } = .next t →
    t.bitcnt.toNat % 8 = 0 ∧ t.fill = (t.bitcnt.extractLsb' 3 6).toNat ∧ t.bitcnt.toNat ≤ 2 ^ 64 - 8 ∧ t.fill ≤ 63

/-- 10_state.md R11: `H` is written in exactly three situations: by reset and by INIT, which load `IV`, and by an ABSORB
that brings `FILL` to 64, which loads the compression of the buffer. -/
def Obligations.ChainIsWrittenInThreeSituations : Prop :=
  ∀ s t : State, step s = .next t → t.h ≠ s.h →
    ∃ p rest, s.inputs = p :: rest ∧
      ((p.rst = true ∧ t.h = iv) ∨
       (∃ w, p.cmd = some w ∧ s.fault = .none ∧ decode w = some .init ∧ t.h = iv) ∨
       (∃ w b, p.cmd = some w ∧ s.fault = .none ∧ decode w = some (.absorb b) ∧ s.fill = 63 ∧
         t.h = compress s.h (s.buf ++ [b])))

/-- 10_state.md R13: the bit counter never wraps: a step keeps it, adds exactly 8 to it (by an ABSORB), or clears it (by
reset or INIT). -/
def Obligations.CountGrowsByEightOrIsCleared : Prop :=
  ∀ s t : State, step s = .next t →
    t.bitcnt = s.bitcnt ∨
    (∃ p rest w b, s.inputs = p :: rest ∧ p.cmd = some w ∧ decode w = some (.absorb b) ∧
      t.bitcnt.toNat = s.bitcnt.toNat + 8) ∨
    (∃ p rest, s.inputs = p :: rest ∧ t.bitcnt = 0#64 ∧
      (p.rst = true ∨ ∃ w, p.cmd = some w ∧ decode w = some .init))

/-- 10_state.md R24: the frames. What each command leaves unchanged whenever it gives a next state: INIT the fault
register; ABSORB the fault register unless it overflows, then everything but it; an ABSORB that completes no block `H`
and every byte already in the buffer; DIGEST and DIGESTHEX all of the architectural state. The host's side and the
responses already recorded are never touched, and INIT and ABSORB leave the response port alone. -/
def Obligations.CommandFrames : Prop :=
  (∀ s t : State, exec .init s = .next t →
    t.fault = s.fault ∧ t.rspLeft = s.rspLeft ∧ t.rspTaken = s.rspTaken ∧ t.inputs = s.inputs ∧
    t.responses = s.responses ++ [[]]) ∧
  (∀ (s t : State) (b : Byte), exec (.absorb b) s = .next t →
    t.rspLeft = s.rspLeft ∧ t.rspTaken = s.rspTaken ∧ t.inputs = s.inputs ∧ t.responses = s.responses ++ [[]] ∧
    (t.fault ≠ s.fault → t.fault = .lenOverflow ∧ t.h = s.h ∧ t.buf = s.buf ∧ t.bitcnt = s.bitcnt) ∧
    (s.fill ≠ 63 → t.h = s.h ∧ ∀ a, a < s.fill → t.buf[a]? = s.buf[a]?)) ∧
  (∀ s t : State, (exec .digest s = .next t ∨ exec .digesthex s = .next t) →
    t.h = s.h ∧ t.bitcnt = s.bitcnt ∧ t.fault = s.fault ∧ t.inputs = s.inputs ∧ (∀ a : Nat, t.buf[a]? = s.buf[a]?) ∧
    (s.fault = .none → t.responses = s.responses))
end

