-- ==== Sys2Proof/Laws/Bytes.lean ====
section
/-! SUPPORT. Lengths of byte sequences, word lists and responses. -/

namespace Sys2Proof.Machine

@[simp] theorem beBytes_length (n v : Nat) : (beBytes n v).length = n := by simp [beBytes]

@[simp] theorem zeros_length (n : Nat) : (zeros n).length = n := by simp [zeros]

@[simp] theorem blockWords_length (blk : List Byte) : (blockWords blk).length = 16 := by simp [blockWords]

@[simp] theorem serialise_length (c : Chain) : (serialise c).length = 32 := by
  simp [serialise, Chain.toList]

@[simp] theorem digestBytes_length (s : State) : (digestBytes s).length = 32 := serialise_length _

@[simp] theorem hexBytes_length (bs : List Byte) : (hexBytes bs).length = 2 * bs.length := by
  induction bs with
  | nil => rfl
  | cons b bs ih => simp [hexBytes, hexPair] at ih ⊢; omega

@[simp] theorem digestHexBytes_length (s : State) : (digestHexBytes s).length = 64 := by simp [digestHexBytes]

/-- Every hexadecimal digit is the code of `0` to `9` or of `a` to `f`. -/
theorem hexDigit_range (v : BitVec 4) :
    (0x30 ≤ (hexDigit v).toNat ∧ (hexDigit v).toNat ≤ 0x39) ∨
    (0x61 ≤ (hexDigit v).toNat ∧ (hexDigit v).toNat ≤ 0x66) := by
  revert v; decide

/-- The exact sum of two words, modulo `2^32`. -/
theorem add32_pair_toNat (x y : Word) : (add32 [x, y]).toNat = (x.toNat + y.toNat) % 2 ^ 32 := by
  simp [add32]

/-- The digest depends on the three live registers only. -/
theorem digestBytes_congr {s t : State} (hh : s.h = t.h) (hb : s.buf = t.buf) (hc : s.bitcnt = t.bitcnt) :
    digestBytes s = digestBytes t := by
  simp [digestBytes, finalChain, State.snapshot, hh, hb, hc]

end Sys2Proof.Machine
end

