-- ==== Sys2Proof/Laws/State.lean ====
section
/-! SUPPORT. One lemma per field per update of the state, so that no proof unfolds a record update, and the cases of the
operations whose result depends on the state. -/

namespace Sys2Proof.Machine

section setChain
variable (s : State) (v : Chain)
@[simp] theorem setChain_h : (s.setChain v).h = v := rfl
@[simp] theorem setChain_buf : (s.setChain v).buf = s.buf := rfl
@[simp] theorem setChain_bitcnt : (s.setChain v).bitcnt = s.bitcnt := rfl
@[simp] theorem setChain_fault : (s.setChain v).fault = s.fault := rfl
@[simp] theorem setChain_rspLeft : (s.setChain v).rspLeft = s.rspLeft := rfl
@[simp] theorem setChain_rspTaken : (s.setChain v).rspTaken = s.rspTaken := rfl
@[simp] theorem setChain_responses : (s.setChain v).responses = s.responses := rfl
@[simp] theorem setChain_inputs : (s.setChain v).inputs = s.inputs := rfl
end setChain

section setBuf
variable (s : State) (b : Memory)
@[simp] theorem setBuf_h : (s.setBuf b).h = s.h := rfl
@[simp] theorem setBuf_buf : (s.setBuf b).buf = b := rfl
@[simp] theorem setBuf_bitcnt : (s.setBuf b).bitcnt = s.bitcnt := rfl
@[simp] theorem setBuf_fault : (s.setBuf b).fault = s.fault := rfl
@[simp] theorem setBuf_rspLeft : (s.setBuf b).rspLeft = s.rspLeft := rfl
@[simp] theorem setBuf_rspTaken : (s.setBuf b).rspTaken = s.rspTaken := rfl
@[simp] theorem setBuf_responses : (s.setBuf b).responses = s.responses := rfl
@[simp] theorem setBuf_inputs : (s.setBuf b).inputs = s.inputs := rfl
end setBuf

section setCount
variable (s : State) (n : Count)
@[simp] theorem setCount_h : (s.setCount n).h = s.h := rfl
@[simp] theorem setCount_buf : (s.setCount n).buf = s.buf := rfl
@[simp] theorem setCount_bitcnt : (s.setCount n).bitcnt = n := rfl
@[simp] theorem setCount_fault : (s.setCount n).fault = s.fault := rfl
@[simp] theorem setCount_rspLeft : (s.setCount n).rspLeft = s.rspLeft := rfl
@[simp] theorem setCount_rspTaken : (s.setCount n).rspTaken = s.rspTaken := rfl
@[simp] theorem setCount_responses : (s.setCount n).responses = s.responses := rfl
@[simp] theorem setCount_inputs : (s.setCount n).inputs = s.inputs := rfl
end setCount

section startMessage
variable (s : State)
@[simp] theorem startMessage_h : s.startMessage.h = iv := rfl
@[simp] theorem startMessage_buf : s.startMessage.buf = [] := rfl
@[simp] theorem startMessage_bitcnt : s.startMessage.bitcnt = 0#64 := rfl
@[simp] theorem startMessage_fault : s.startMessage.fault = s.fault := rfl
@[simp] theorem startMessage_rspLeft : s.startMessage.rspLeft = s.rspLeft := rfl
@[simp] theorem startMessage_rspTaken : s.startMessage.rspTaken = s.rspTaken := rfl
@[simp] theorem startMessage_responses : s.startMessage.responses = s.responses := rfl
@[simp] theorem startMessage_inputs : s.startMessage.inputs = s.inputs := rfl
end startMessage

section hardReset
variable (s : State)
@[simp] theorem hardReset_h : s.hardReset.h = iv := rfl
@[simp] theorem hardReset_buf : s.hardReset.buf = [] := rfl
@[simp] theorem hardReset_bitcnt : s.hardReset.bitcnt = 0#64 := rfl
@[simp] theorem hardReset_fault : s.hardReset.fault = .none := rfl
@[simp] theorem hardReset_rspLeft : s.hardReset.rspLeft = [] := rfl
@[simp] theorem hardReset_rspTaken : s.hardReset.rspTaken = [] := rfl
@[simp] theorem hardReset_responses : s.hardReset.responses = s.responses := rfl
@[simp] theorem hardReset_inputs : s.hardReset.inputs = s.inputs := rfl
end hardReset

section dropInput
variable (s : State)
@[simp] theorem dropInput_h : s.dropInput.h = s.h := rfl
@[simp] theorem dropInput_buf : s.dropInput.buf = s.buf := rfl
@[simp] theorem dropInput_bitcnt : s.dropInput.bitcnt = s.bitcnt := rfl
@[simp] theorem dropInput_fault : s.dropInput.fault = s.fault := rfl
@[simp] theorem dropInput_rspLeft : s.dropInput.rspLeft = s.rspLeft := rfl
@[simp] theorem dropInput_rspTaken : s.dropInput.rspTaken = s.rspTaken := rfl
@[simp] theorem dropInput_responses : s.dropInput.responses = s.responses := rfl
@[simp] theorem dropInput_inputs : s.dropInput.inputs = s.inputs.tail := rfl
@[simp] theorem dropInput_arch : s.dropInput.arch = s.arch := rfl
end dropInput

section arch
variable (s : State)
@[simp] theorem arch_h : s.arch.h = s.h := rfl
@[simp] theorem arch_buf : s.arch.buf = s.buf := rfl
@[simp] theorem arch_bitcnt : s.arch.bitcnt = s.bitcnt := rfl
@[simp] theorem arch_fault : s.arch.fault = s.fault := rfl
end arch

/-- Equal architectural parts are equal registers. -/
theorem arch_eq_iff (s t : State) :
    s.arch = t.arch ↔ s.h = t.h ∧ s.buf = t.buf ∧ s.bitcnt = t.bitcnt ∧ s.fault = t.fault := by
  rw [Arch.ext_iff]; simp

end Sys2Proof.Machine
end

