-- ==== Sys2Proof/Laws/Ops.lean ====
section
/-! SUPPORT. One lemma for each shared operation that says what it does: responses, fault entry, the first check of a
command, the consumption of a block, the taking of response bytes, and the sequencing of outcomes. -/

namespace Sys2Proof.Machine

/-- An empty response is complete at once. -/
@[simp] theorem respond_nil (s : State) : s.respond [] = { s with responses := s.responses ++ [[]] } := rfl

/-- A non-empty response is pending as a whole. -/
theorem respond_of_length {s : State} {r : List Byte} {n : Nat} (h : r.length = n + 1) :
    s.respond r = { s with rspLeft := r, rspTaken := [] } := by
  cases r with
  | nil => simp at h
  | cons b r => rfl

/-- No response changes the architectural state. -/
@[simp] theorem respond_arch (s : State) (r : List Byte) : (s.respond r).arch = s.arch := by
  cases r <;> rfl

@[simp] theorem respond_inputs (s : State) (r : List Byte) : (s.respond r).inputs = s.inputs := by
  cases r <;> rfl

/-- Fault entry on an unfaulted engine. -/
theorem raiseFault_of_none {s : State} (h : s.fault = .none) (c : FaultCode) :
    s.raiseFault c = { s with fault := c, responses := s.responses ++ [[]] } := by
  simp [State.raiseFault, h]

@[simp] theorem ignoreCommand_eq (s : State) : s.ignoreCommand = { s with responses := s.responses ++ [[]] } := rfl

/-- The first check, passed. -/
theorem unlessFaulted_of_none {s : State} (h : s.fault = .none) (o : Host.Outcome State Fault Refusal) :
    unlessFaulted s o = o := by simp [unlessFaulted, h]

/-- The first check, not passed. -/
theorem unlessFaulted_of_fault {s : State} (h : s.fault ≠ .none) (o : Host.Outcome State Fault Refusal) :
    unlessFaulted s o = .next { s with responses := s.responses ++ [[]] } := by simp [unlessFaulted, h]

@[simp] theorem andThen_next (s : State) (f : State → Host.Outcome State Fault Refusal) :
    andThen (.next s) f = f s := rfl

theorem andThen_assoc (o : Host.Outcome State Fault Refusal) (f g : State → Host.Outcome State Fault Refusal) :
    andThen (andThen o f) g = andThen o fun s => andThen (f s) g := by
  cases o <;> rfl

/-- A sequence of commands can be cut anywhere. -/
theorem runWords_append (ws vs : List CmdWord) (s : State) :
    runWords (ws ++ vs) s = andThen (runWords ws s) (runWords vs) := by
  induction ws generalizing s with
  | nil => rfl
  | cons w ws ih =>
    simp only [List.cons_append, runWords, andThen_assoc]
    congr 1
    funext t
    exact ih t

/-- The consumption of the buffer when it holds a whole block. -/
theorem consumeBlock_of_eq {s : State} (h : s.buf.length = 64) :
    s.consumeBlock = { s with h := compress s.h s.buf, buf := [] } := by
  simp [State.consumeBlock, blockComplete, h, State.setChain, State.setBuf]

/-- The consumption of the buffer when it does not. -/
theorem consumeBlock_of_ne {s : State} (h : s.buf.length ≠ 64) : s.consumeBlock = s := by
  simp [State.consumeBlock, blockComplete, h]

/-- Consuming a block keeps the form of the buffer, and gives it to a buffer of 64 bytes. -/
theorem consumeBlock_keeps_wf {s : State} (h : s.buf.length ≤ 64) : Memory.wf s.consumeBlock.buf = true := by
  by_cases hl : s.buf.length = 64
  · simp [consumeBlock_of_eq hl, Memory.wf]
  · rw [consumeBlock_of_ne hl]
    simp [Memory.wf]
    omega

/-- The buffer of INIT and of reset has the form. -/
theorem emptyBuffer_wf : Memory.wf [] = true := by decide

/-- Appending one byte is appending that byte. -/
@[simp] theorem memWrite_byte (s : List Byte) (b : Byte) : memWrite s 1 b.toNat = s ++ [b] := by
  simp [memWrite, beBytes]

/-- ABSORB's writes keep the form of the buffer. -/
theorem takeMessageByte_keeps_wf {s : State} (h : Memory.wf s.buf = true) (b : Byte) :
    Memory.wf (s.takeMessageByte b).buf = true := by
  apply consumeBlock_keeps_wf
  simp [Memory.wf] at h ⊢
  omega

@[simp] theorem consumeBlock_bitcnt (s : State) : s.consumeBlock.bitcnt = s.bitcnt := by
  unfold State.consumeBlock; split <;> rfl
@[simp] theorem consumeBlock_fault (s : State) : s.consumeBlock.fault = s.fault := by
  unfold State.consumeBlock; split <;> rfl
@[simp] theorem consumeBlock_rspLeft (s : State) : s.consumeBlock.rspLeft = s.rspLeft := by
  unfold State.consumeBlock; split <;> rfl
@[simp] theorem consumeBlock_rspTaken (s : State) : s.consumeBlock.rspTaken = s.rspTaken := by
  unfold State.consumeBlock; split <;> rfl
@[simp] theorem consumeBlock_responses (s : State) : s.consumeBlock.responses = s.responses := by
  unfold State.consumeBlock; split <;> rfl
@[simp] theorem consumeBlock_inputs (s : State) : s.consumeBlock.inputs = s.inputs := by
  unfold State.consumeBlock; split <;> rfl

/-- What ABSORB writes, when the byte completes no block. -/
theorem takeMessageByte_of_ne {s : State} {b : Byte} (h : (s.buf ++ [b]).length ≠ 64) :
    s.takeMessageByte b = { s with buf := s.buf ++ [b], bitcnt := s.bitcnt + 8#64 } := by
  unfold State.takeMessageByte
  rw [consumeBlock_of_ne] <;> simp_all [State.setBuf, State.setCount]

/-- What ABSORB writes, when the byte completes a block. -/
theorem takeMessageByte_of_eq {s : State} {b : Byte} (h : (s.buf ++ [b]).length = 64) :
    s.takeMessageByte b =
      { s with h := compress s.h (s.buf ++ [b]), buf := [], bitcnt := s.bitcnt + 8#64 } := by
  unfold State.takeMessageByte
  rw [consumeBlock_of_eq] <;> simp_all [State.setBuf, State.setCount]

@[simp] theorem takeMessageByte_fault (s : State) (b : Byte) : (s.takeMessageByte b).fault = s.fault := by
  simp [State.takeMessageByte]
@[simp] theorem takeMessageByte_bitcnt (s : State) (b : Byte) : (s.takeMessageByte b).bitcnt = s.bitcnt + 8#64 := by
  simp [State.takeMessageByte]
@[simp] theorem takeMessageByte_rspLeft (s : State) (b : Byte) : (s.takeMessageByte b).rspLeft = s.rspLeft := by
  simp [State.takeMessageByte]
@[simp] theorem takeMessageByte_rspTaken (s : State) (b : Byte) : (s.takeMessageByte b).rspTaken = s.rspTaken := by
  simp [State.takeMessageByte]
@[simp] theorem takeMessageByte_responses (s : State) (b : Byte) : (s.takeMessageByte b).responses = s.responses := by
  simp [State.takeMessageByte]
@[simp] theorem takeMessageByte_inputs (s : State) (b : Byte) : (s.takeMessageByte b).inputs = s.inputs := by
  simp [State.takeMessageByte]

/-- The overflow check as an inequality of integers. -/
theorem countOverflows_iff (n : Count) : countOverflows n = true ↔ n.toNat + 8 > 2 ^ 64 - 1 := by
  simp [countOverflows]

/-- Below the overflow, adding 8 to the counter is exact. -/
theorem count_add_eight {n : Count} (h : n.toNat + 8 ≤ 2 ^ 64 - 1) : (n + 8#64).toNat = n.toNat + 8 := by
  rw [BitVec.toNat_add]
  simp only [BitVec.toNat_ofNat]
  omega

/-- The host takes one byte of several. -/
theorem takeRspByte_more {s : State} {b c : Byte} {r : List Byte} (h : s.rspLeft = b :: c :: r) :
    s.takeRspByte = { s with rspLeft := c :: r, rspTaken := s.rspTaken ++ [b] } := by
  simp [State.takeRspByte, h]

/-- The host takes the last byte. -/
theorem takeRspByte_last {s : State} {b : Byte} (h : s.rspLeft = [b]) :
    s.takeRspByte =
      { s with rspLeft := [], rspTaken := [], responses := s.responses ++ [s.rspTaken ++ [b]] } := by
  simp [State.takeRspByte, h]

@[simp] theorem takeRspByte_arch (s : State) : s.takeRspByte.arch = s.arch := by
  unfold State.takeRspByte
  split <;> rfl

@[simp] theorem takeRspByte_inputs (s : State) : s.takeRspByte.inputs = s.inputs := by
  unfold State.takeRspByte
  split <;> rfl

@[simp] theorem drain_arch (s : State) : s.drain.arch = s.arch := by
  unfold State.drain
  split <;> rfl

@[simp] theorem drain_fault (s : State) : s.drain.fault = s.fault := congrArg Arch.fault (drain_arch s)

@[simp] theorem drain_bitcnt (s : State) : s.drain.bitcnt = s.bitcnt := congrArg Arch.bitcnt (drain_arch s)

/-- Nothing to drain. -/
theorem drain_of_nil {s : State} (h : s.rspLeft = []) : s.drain = s := by simp [State.drain, State.rspValid, h]

/-- Draining a pending response completes it. -/
theorem drain_of_ne {s : State} (h : s.rspLeft ≠ []) :
    s.drain = { s with rspLeft := [], rspTaken := [], responses := s.responses ++ [s.rspTaken ++ s.rspLeft] } := by
  simp [State.drain, State.rspValid, h]

/-- A non-empty response given and taken whole is recorded. Stated for any bytes `r`, so that a proof about a digest
never makes Lean compute one: rewrite with this lemma, then put the digest for `r`. -/
theorem drain_of_pending (s : State) (r : List Byte) (hr : r ≠ []) :
    State.drain { s with rspLeft := r, rspTaken := [] } =
      { s with rspLeft := [], rspTaken := [], responses := s.responses ++ [r] } := by
  rw [drain_of_ne (by exact hr)]
  rfl

end Sys2Proof.Machine
end

