-- ==== Sys2Proof/Laws/PerInstr.lean ====
section
/-! SUPPORT. What holds of every instruction as syntax, one lemma for each constructor. -/

namespace Sys2Proof.Laws.EncodesToARow

/-- The instruction is well formed, and its word is a legal word and a word of the row of the opcode map with its
mnemonic (30_encoding.md R51, R53). -/
def Statement (i : Instr) : Prop :=
  i.wellFormed = true ∧ CmdWord.legal (encode i) = true ∧
    ∃ r ∈ opcodeMap, r.mnemonic = mnemonicOf i ∧ r.holds (encode i) = true

theorem init : Statement .init := by unfold Statement; decide

theorem absorb (b : Byte) : Statement (.absorb b) := by
  have hw : (encode (.absorb b)).toNat = 512 + b.toNat := by
    simp only [encode, packWord, BitVec.toNat_append]
    have := b.isLt
    rw [← Nat.shiftLeft_add_eq_or_of_lt (by omega)]
    simp [Nat.shiftLeft_eq]
  refine ⟨?_, ?_, ⟨"ABSORB", 0x0200#16, 0xFF00#16⟩, by simp [opcodeMap], rfl, ?_⟩
  · have := b.isLt
    simp [Instr.wellFormed]
    omega
  · have := b.isLt
    simp only [CmdWord.legal, hw]
    simp
    omega
  · revert b
    decide

theorem digest : Statement .digest := by unfold Statement; decide

theorem digesthex : Statement .digesthex := by unfold Statement; decide

end Sys2Proof.Laws.EncodesToARow
end

