-- ==== Sys2Proof/Laws/Step.lean ====
section
/-! SUPPORT. Once, everything a command word and a step can do: the inversion lemmas that the whole-machine proofs cite
instead of unfolding `issue` and `step`. -/

namespace Sys2Proof.Machine

/-- DIGEST on an unfaulted engine: its response is pending and nothing else has changed. -/
theorem exec_digest_of_none {s : State} (hf : s.fault = .none) :
    exec .digest s = .next { s with rspLeft := digestBytes s, rspTaken := [] } := by
  simp only [exec, execDigest, unlessFaulted_of_none hf, respond_of_length (digestBytes_length s)]

/-- DIGESTHEX on an unfaulted engine: its response is pending and nothing else has changed. -/
theorem exec_digesthex_of_none {s : State} (hf : s.fault = .none) :
    exec .digesthex s = .next { s with rspLeft := digestHexBytes s, rspTaken := [] } := by
  simp only [exec, execDigesthex, unlessFaulted_of_none hf, respond_of_length (digestHexBytes_length s)]

/-- The two checks of the fault register, in `issue` and in the meaning, are one. -/
theorem issue_of_decode {w : CmdWord} {i : Instr} (hd : decode w = some i) (s : State) : issue w s = exec i s := by
  by_cases hf : s.fault = .none
  · simp [issue, unlessFaulted_of_none hf, hd]
  · rw [issue, unlessFaulted_of_fault hf]
    cases i <;> exact (unlessFaulted_of_fault hf _).symm

/-- The digest response is not empty. -/
theorem digestBytes_ne_nil (s : State) : digestBytes s ≠ [] :=
  List.ne_nil_of_length_pos (by rw [digestBytes_length]; omega)

/-- The hexadecimal response is not empty. -/
theorem digestHexBytes_ne_nil (s : State) : digestHexBytes s ≠ [] :=
  List.ne_nil_of_length_pos (by rw [digestHexBytes_length]; omega)

/-- What a command word can do, one case for each outcome. -/
inductive IssueCase (w : CmdWord) (s t : State) : Prop where
  /-- The engine is faulted and ignores the word. -/
  | ignored (hf : s.fault ≠ .none) (ht : t = { s with responses := s.responses ++ [[]] })
  /-- The word is no command. -/
  | illegal (hf : s.fault = .none) (hd : decode w = none)
      (ht : t = { s with fault := .illegalCmd, responses := s.responses ++ [[]] })
  /-- INIT. -/
  | init (hf : s.fault = .none) (hd : decode w = some .init)
      (ht : t = { s with h := iv, buf := [], bitcnt := 0#64, responses := s.responses ++ [[]] })
  /-- ABSORB without room in the counter. -/
  | overflow (b : Byte) (hf : s.fault = .none) (hd : decode w = some (.absorb b))
      (hc : s.bitcnt.toNat + 8 > 2 ^ 64 - 1)
      (ht : t = { s with fault := .lenOverflow, responses := s.responses ++ [[]] })
  /-- ABSORB of a byte that completes no block. -/
  | append (b : Byte) (hf : s.fault = .none) (hd : decode w = some (.absorb b))
      (hc : s.bitcnt.toNat + 8 ≤ 2 ^ 64 - 1) (hl : (s.buf ++ [b]).length ≠ 64)
      (ht : t = { s with
        buf := s.buf ++ [b], bitcnt := s.bitcnt + 8#64, responses := s.responses ++ [[]] })
  /-- ABSORB of a byte that completes a block. -/
  | block (b : Byte) (hf : s.fault = .none) (hd : decode w = some (.absorb b))
      (hc : s.bitcnt.toNat + 8 ≤ 2 ^ 64 - 1) (hl : (s.buf ++ [b]).length = 64)
      (ht : t = { s with
        h := compress s.h (s.buf ++ [b]), buf := [], bitcnt := s.bitcnt + 8#64,
        responses := s.responses ++ [[]] })
  /-- DIGEST. -/
  | digest (hf : s.fault = .none) (hd : decode w = some .digest)
      (ht : t = { s with rspLeft := digestBytes s, rspTaken := [] })
  /-- DIGESTHEX. -/
  | digesthex (hf : s.fault = .none) (hd : decode w = some .digesthex)
      (ht : t = { s with rspLeft := digestHexBytes s, rspTaken := [] })

/-- Every command word completes, in one of these ways. -/
theorem issue_cases (w : CmdWord) (s : State) : ∃ t, issue w s = .next t ∧ IssueCase w s t := by
  by_cases hf : s.fault = .none
  · simp only [issue, unlessFaulted_of_none hf]
    cases hd : decode w with
    | none => exact ⟨_, rfl, .illegal hf hd (raiseFault_of_none hf _)⟩
    | some i =>
      cases i with
      | init => exact ⟨s.startMessage.respond [], by simp only [exec, execInit, unlessFaulted_of_none hf],
          .init hf hd rfl⟩
      | absorb b =>
        simp only [exec, execAbsorb, unlessFaulted_of_none hf]
        by_cases hc : s.bitcnt.toNat + 8 > 2 ^ 64 - 1
        · rw [if_pos ((countOverflows_iff _).2 hc)]
          exact ⟨_, rfl, .overflow b hf hd hc (raiseFault_of_none hf _)⟩
        · rw [if_neg (mt (countOverflows_iff _).1 hc)]
          by_cases hl : (s.buf ++ [b]).length = 64
          · exact ⟨_, rfl, .block b hf hd (by omega) hl (by simp [takeMessageByte_of_eq hl])⟩
          · exact ⟨_, rfl, .append b hf hd (by omega) hl (by simp [takeMessageByte_of_ne hl])⟩
      | digest =>
        exact ⟨_, by simp only [exec, execDigest, unlessFaulted_of_none hf],
          .digest hf hd (respond_of_length (digestBytes_length s))⟩
      | digesthex =>
        exact ⟨_, by simp only [exec, execDigesthex, unlessFaulted_of_none hf],
          .digesthex hf hd (respond_of_length (digestHexBytes_length s))⟩
  · exact ⟨_, unlessFaulted_of_fault hf _, .ignored hf rfl⟩

/-- The inversion of a command word that answers a next state. -/
theorem issueCase_of_next {w : CmdWord} {s t : State} (h : issue w s = .next t) : IssueCase w s t := by
  obtain ⟨t', h', hc⟩ := issue_cases w s
  rw [h] at h'
  cases h'
  exact hc

/-- What a command word does does not depend on what the host will drive, and leaves it as it is. -/
theorem issue_inputs {w : CmdWord} {s t : State} (h : issue w s = .next t) (ins : List HostInput) :
    issue w { s with inputs := ins } = .next { t with inputs := ins } := by
  have he : ∀ hd : digestBytes { s with inputs := ins } = digestBytes s, IssueCase w s t →
      issue w { s with inputs := ins } = .next { t with inputs := ins } := by
    intro hd hc
    cases hc with
    | ignored hf ht => subst ht; exact unlessFaulted_of_fault (by exact hf) _
    | illegal hf hn ht =>
      subst ht
      rw [issue, unlessFaulted_of_none (by exact hf), hn]
      exact congrArg _ (raiseFault_of_none (by exact hf) _)
    | init hf hn ht =>
      subst ht
      rw [issue_of_decode hn, exec, execInit, unlessFaulted_of_none (by exact hf)]
      rfl
    | overflow b hf hn hc ht =>
      subst ht
      rw [issue_of_decode hn, exec, execAbsorb, unlessFaulted_of_none (by exact hf),
        if_pos ((countOverflows_iff _).2 hc)]
      exact congrArg _ (raiseFault_of_none (by exact hf) _)
    | append b hf hn hc hl ht =>
      subst ht
      rw [issue_of_decode hn, exec, execAbsorb, unlessFaulted_of_none (by exact hf),
        if_neg (mt (countOverflows_iff _).1 (Nat.not_lt.2 hc)), takeMessageByte_of_ne (by exact hl)]
      rfl
    | block b hf hn hc hl ht =>
      subst ht
      rw [issue_of_decode hn, exec, execAbsorb, unlessFaulted_of_none (by exact hf),
        if_neg (mt (countOverflows_iff _).1 (Nat.not_lt.2 hc)), takeMessageByte_of_eq (by exact hl)]
      rfl
    | digest hf hn ht =>
      subst ht
      rw [issue_of_decode hn, exec_digest_of_none (by exact hf), hd]
    | digesthex hf hn ht =>
      subst ht
      rw [issue_of_decode hn, exec_digesthex_of_none (by exact hf), digestHexBytes, hd, ← digestHexBytes]
  exact he (digestBytes_congr rfl rfl rfl) (issueCase_of_next h)

/-- What a step can do, one case for each action of the ports. -/
inductive StepCase (s t : State) : Prop where
  /-- The host drives nothing more. -/
  | done (hi : s.inputs = []) (ht : t = s)
  /-- `rst` is sampled high. -/
  | reset (p : HostInput) (rest : List HostInput) (hi : s.inputs = p :: rest) (hr : p.rst = true)
      (ht : t = { s with
        inputs := rest, h := iv, buf := [], bitcnt := 0#64, fault := .none, rspLeft := [], rspTaken := [] })
  /-- Nothing is presented, or a response byte is presented and not taken. -/
  | unchanged (p : HostInput) (rest : List HostInput) (hi : s.inputs = p :: rest) (hr : p.rst = false)
      (hw : (s.rspLeft = [] ∧ p.cmd = none) ∨ (s.rspLeft ≠ [] ∧ p.rspReady = false))
      (ht : t = { s with inputs := rest })
  /-- A response byte is taken. -/
  | take (p : HostInput) (rest : List HostInput) (hi : s.inputs = p :: rest) (hr : p.rst = false)
      (hl : s.rspLeft ≠ []) (ht : t = State.takeRspByte { s with inputs := rest })
  /-- A command word is issued. -/
  | command (p : HostInput) (rest : List HostInput) (w : CmdWord) (hi : s.inputs = p :: rest) (hr : p.rst = false)
      (hp : p.cmd = some w) (hl : s.rspLeft = []) (hc : IssueCase w { s with inputs := rest } t)

/-- The action of the next sample, given what it drives and what is pending. -/
theorem portAction_cons {s : State} {p : HostInput} {rest : List HostInput} (hi : s.inputs = p :: rest) :
    s.portAction =
      if p.rst then .reset
      else if s.rspLeft ≠ [] then (if p.rspReady then .take else .wait)
      else p.cmd.elim .idle .issue := by
  unfold State.portAction
  cases hp : p.cmd <;> cases hl : s.rspLeft <;> simp [hi, hp, hl, State.rspValid]

/-- A step whose sample presents a command word, with `rst` low and no response pending, issues it. -/
theorem step_of_command {s : State} {p : HostInput} {rest : List HostInput} {w : CmdWord}
    (hi : s.inputs = p :: rest) (hr : p.rst = false) (hp : p.cmd = some w) (hl : s.rspLeft = []) :
    step s = issue w { s with inputs := rest } := by
  have hd : s.dropInput = { s with inputs := rest } := by simp [State.dropInput, hi]
  have ha : s.portAction = .issue w := by rw [portAction_cons hi, hr, hp, hl]; rfl
  rw [step, clockPorts, ha, ← hd]

/-- A step whose sample takes a byte, with `rst` low and a response pending, takes it. -/
theorem step_of_take {s : State} {p : HostInput} {rest : List HostInput}
    (hi : s.inputs = p :: rest) (hr : p.rst = false) (hl : s.rspLeft ≠ []) (hy : p.rspReady = true) :
    step s = .next (State.takeRspByte { s with inputs := rest }) := by
  have hd : s.dropInput = { s with inputs := rest } := by simp [State.dropInput, hi]
  have ha : s.portAction = .take := by rw [portAction_cons hi, hr, hy]; simp [hl]
  rw [step, clockPorts, ha, ← hd]

/-- Every step answers a next state, in one of these ways. -/
theorem step_cases (s : State) : ∃ t, step s = .next t ∧ StepCase s t := by
  cases hi : s.inputs with
  | nil =>
    refine ⟨s.dropInput, ?_, .done hi (by cases s; simp_all [State.dropInput])⟩
    simp [step, clockPorts, State.portAction, hi]
  | cons p rest =>
    have hd : s.dropInput = { s with inputs := rest } := by simp [State.dropInput, hi]
    have ha := portAction_cons hi
    unfold step clockPorts
    rw [ha, hd]
    cases hr : p.rst with
    | true => exact ⟨State.hardReset { s with inputs := rest }, by simp, .reset p rest hi hr rfl⟩
    | false =>
      by_cases hl : s.rspLeft = []
      · cases hp : p.cmd with
        | none => exact ⟨_, by simp [hl], .unchanged p rest hi hr (.inl ⟨hl, hp⟩) rfl⟩
        | some w =>
          obtain ⟨t, h, hc⟩ := issue_cases w { s with inputs := rest }
          exact ⟨t, by simpa [hl] using h, .command p rest w hi hr hp hl hc⟩
      · cases hy : p.rspReady with
        | true => exact ⟨_, by simp [hl], .take p rest hi hr hl rfl⟩
        | false => exact ⟨_, by simp [hl], .unchanged p rest hi hr (.inr ⟨hl, hy⟩) rfl⟩

/-- The inversion of a step. -/
theorem stepCase_of_next {s t : State} (h : step s = .next t) : StepCase s t := by
  obtain ⟨t', h', hc⟩ := step_cases s
  rw [h] at h'
  cases h'
  exact hc

/-- One step of a run. -/
theorem run_next {n : Nat} {s t : State} (h : step s = .next t) :
    Sys2Proof.core.run (n + 1) s = Sys2Proof.core.run n t := by
  simp only [Host.Core.run]
  rw [show Sys2Proof.core.step = step from rfl, h]

/-- What every step keeps, every run keeps. -/
theorem run_keeps {P : State → Prop} (hP : ∀ s t, P s → step s = .next t → P t) (n : Nat) {s t : State} (hs : P s)
    (h : Sys2Proof.core.run n s = .next t) : P t := by
  induction n generalizing s with
  | zero => cases h; exact hs
  | succ n ih =>
    obtain ⟨u, hu, -⟩ := step_cases s
    rw [run_next hu] at h
    exact ih (hP s u hs hu) h

end Sys2Proof.Machine
end

