-- ==== Sys2Proof/Tests/Slice0.lean ====
section
/-! SUPPORT. Tests whose expected values come from spec/ (95_test_vectors.md, or the encoding tables), and for every
statement with hypotheses a named witness that meets them. Each test is about one operation or one step. -/

namespace Sys2Proof.Tests

open Sys2Proof Sys2Proof.Machine

-- One theorem is checked at a time: some take seconds, and each one waiting for them would hold a thread.
set_option Elab.async false

/-! Helpers. -/

/-- The unfaulted state inside a message: `H = IV`, the given buffer and count, no response pending. -/
def midState (buf : List Byte) (bitcnt : Count) : State := { State.reset with buf := buf, bitcnt := bitcnt }

/-- `midState` on a faulted engine. -/
def faultedState (c : FaultCode) : State := { midState [0x61#8] 8#64 with fault := c }

/-- A state in the middle of a message, with a chaining value that is not `IV`. -/
def otherChainState : State :=
  { midState [0x78#8, 0x79#8] 0x210#64 with h := ⟨1#32, 2#32, 3#32, 4#32, 5#32, 6#32, 7#32, 8#32⟩ }

/-- The next state of an outcome that has one. -/
def nextOf : Host.Outcome State Fault Refusal → Option State
  | .next s => some s
  | .fault _ => none
  | .refused _ => none

/-- `n` letters "a", the input A of 95_test_vectors.md section 7. -/
def letters (n : Nat) : List Byte := List.replicate n 0x61#8

/-! Encoding (30_encoding.md R51, R53; 95_test_vectors.md section 2). -/

theorem test_decode_init : decode 0b00000001_00000000#16 = some .init := by decide
theorem test_decode_absorb :
    decode 0b00000010_01100001#16 = some (.absorb 0x61#8) ∧ decode 0b00000010_10000000#16 = some (.absorb 0x80#8) ∧
    decode 0b00000010_11111111#16 = some (.absorb 0xff#8) ∧ decode 0x0200#16 = some (.absorb 0x00#8) := by decide
theorem test_decode_digest : decode 0b00000011_00000000#16 = some .digest := by decide
theorem test_decode_digesthex : decode 0b00000100_00000000#16 = some .digesthex := by decide
theorem test_decode_illegal :
    [0x0000#16, 0x0001#16, 0x00ff#16, 0x0101#16, 0x01ff#16, 0x0301#16, 0x0380#16, 0x0401#16, 0x04ff#16, 0x0500#16,
     0x0600#16, 0x0800#16, 0x1000#16, 0x8000#16, 0x8100#16, 0xff00#16, 0xffff#16].all (fun w => (decode w).isNone) =
    true := by decide
theorem test_decode_table_word :
    decodeTableWord 16 0x0300 = some .digest ∧ decodeTableWord 16 0x0500 = none ∧
    decodeTableWord 8 0x0361 = none := by decide

/-- One ill-formed word for each check of the legality of a word: op 0, op 5 and above, data not zero. -/
theorem test_ill_formed_words_refused :
    CmdWord.legal 0x0000#16 = false ∧ CmdWord.legal 0x0500#16 = false ∧ CmdWord.legal 0xffff#16 = false ∧
    CmdWord.legal 0x0101#16 = false ∧ CmdWord.legal 0x0301#16 = false ∧ CmdWord.legal 0x0401#16 = false ∧
    CmdWord.legal 0x02ff#16 = true := by decide

/-- One ill-formed line for each check of the notation: a byte of 256, a character that is not printable, a `.word` of
65536; each makes the whole program refused. -/
theorem test_ill_formed_lines_refused :
    assemble [.init, .absorb (.num 256)] = none ∧ assemble [.absorb (.chr '\n'), .digest] = none ∧
    assemble [.word 65536] = none ∧ assemble [.update (.list [.num 255, .num 300])] = none ∧
    assemble [.hash (.str ['a', 'é'])] = none ∧ assemble [.hashhex (.rep 2 (.num 256))] = none := by decide

/-- Program of V2: `HASHHEX "abc"`. -/
theorem test_assemble_hashhex :
    assemble [.comment, .hashhex (.str ['a', 'b', 'c'])] =
      some [0x0100#16, 0x0261#16, 0x0262#16, 0x0263#16, 0x0400#16] := by decide

/-! Word operations (95_test_vectors.md section 3). -/

theorem test_add32 :
    add32 [0xffffffff#32, 1#32] = 0#32 ∧ add32 [0x6a09e667#32, 0x506e3058#32] = 0xba7816bf#32 ∧
    add32 [0x5be0cd19#32, 0x3587272b#32, 0x1f85c98c#32, 0x428a2f98#32, 0x61626380#32] = 0x54da50e8#32 := by decide
theorem test_rotr_shr :
    rotr 0x12345678#32 7 = 0xf02468ac#32 ∧ rotr 0x80000000#32 31 = 1#32 ∧ rotr 0x12345678#32 18 = 0x159e048d#32 ∧
    shr 0x12345678#32 3 = 0x02468acf#32 ∧ shr 0xffffffff#32 13 = 0x0007ffff#32 ∧
    not32 0x510e527f#32 = 0xaef1ad80#32 := by decide
theorem test_sigmas :
    ssig0 0x12345678#32 = 0xe7fce6ee#32 ∧ ssig1 0x12345678#32 = 0xa1f78649#32 ∧ bsig0 0x12345678#32 = 0x66146474#32 ∧
    bsig1 0x12345678#32 = 0x3561abda#32 ∧ ssig0 0xdeadbeef#32 = 0xabd31b0b#32 ∧ ssig1 0xdeadbeef#32 = 0x689dbfec#32 ∧
    bsig0 0xdeadbeef#32 = 0xb62e25ac#32 ∧ bsig1 0xdeadbeef#32 = 0x345e14a3#32 := by decide
theorem test_ch_maj :
    ch 0x510e527f#32 0x9b05688c#32 0x1f83d9ab#32 = 0x1f85c98c#32 ∧
    maj 0x6a09e667#32 0xbb67ae85#32 0x3c6ef372#32 = 0x3a6fe667#32 := by decide
theorem test_tables :
    iv.word 4 = 0x510e527f#32 ∧ kConst 0 = 0x428a2f98#32 ∧ kConst 47 = 0x106aa070#32 ∧ kConst 63 = 0xc67178f2#32 := by
  decide

/-! Compression (95_test_vectors.md sections 4 and 5). -/

/-- The block of "abc". -/
def abcBlock : List Byte := [0x61#8, 0x62#8, 0x63#8, 0x80#8] ++ List.replicate 59 0#8 ++ [0x18#8]

theorem test_first_round_of_abc :
    roundStep (loadVars iv) (kConst 0) (memRead4 abcBlock 0) =
      ⟨0x5d6aebcd#32, 0x6a09e667#32, 0xbb67ae85#32, 0x3c6ef372#32, 0xfa2a4622#32, 0x510e527f#32, 0x9b05688c#32,
        0x1f83d9ab#32⟩ := by decide
theorem test_schedule_and_compress :
    [0, 15, 16, 17, 18, 30, 47, 63].map (scheduleWord (schedule abcBlock)) =
      [0x61626380#32, 0x00000018#32, 0x61626380#32, 0x000f0000#32, 0x7da86405#32, 0x702138a4#32, 0x065c43da#32,
        0x12b1edeb#32] ∧
    compress iv (List.replicate 64 0xff#8) =
      ⟨0xef0c748d#32, 0xf4da50a8#32, 0xd6c43c01#32, 0x3edc3ce7#32, 0x6c9d9fa9#32, 0xa1458ade#32, 0x56eb86c0#32,
        0xa64492d2#32⟩ := by decide +kernel

/-! The four commands. -/

/-- P7: INIT in mid-message discards the bytes in progress. -/
theorem test_init_discards_the_message :
    exec .init otherChainState =
      .next { State.reset with responses := [[]] } := rfl

/-- Section 5: the 64th byte of the all-zero block is compressed at once. -/
theorem test_absorb_completes_a_block :
    (nextOf (exec (.absorb 0x00#8) (midState (List.replicate 63 0#8) 504#64))).map State.arch =
      some ⟨⟨0xda5698be#32, 0x17b9b469#32, 0x62335799#32, 0x779fbeca#32, 0x8ce5d491#32, 0xc0d26243#32, 0xbafef9ea#32,
        0x1837a9d8#32⟩, [], 512#64, .none⟩ := by decide +kernel

/-- P6: the last byte the counter has room for is taken, the next one is not. -/
theorem test_absorb_at_the_last_count :
    (nextOf (exec (.absorb 0#8) (midState (List.replicate 62 0#8) 0xfffffffffffffff0#64))).map State.arch =
      some ⟨iv, List.replicate 63 0#8, 0xfffffffffffffff8#64, .none⟩ ∧
    (nextOf (exec (.absorb 0#8) (midState (List.replicate 63 0#8) 0xfffffffffffffff8#64))).map State.arch =
      some ⟨iv, List.replicate 63 0#8, 0xfffffffffffffff8#64, .lenOverflow⟩ := by decide +kernel

/-- V2 as a DIGEST response; and section 6: two padding blocks and a length field of high bytes. -/
theorem test_digest :
    (nextOf (exec .digest (midState [0x61#8, 0x62#8, 0x63#8] 24#64))).map State.rspLeft =
      some (beBytes 32 0xba7816bf8f01cfea414140de5dae2223b00361a396177a9cb410ff61f20015ad) ∧
    (nextOf (exec .digest (midState (List.replicate 63 0#8) 0xfffffffffffffff8#64))).map State.rspLeft =
      some (beBytes 32 0xfd4b187d978e53ac38a3e4ca1cdb558d9fefb1f75ce00a7fc5f3ed697823ab38) := by decide +kernel

/-- V1 as a DIGESTHEX response, from the reset state: 64 characters, the 64th being '5'; and section 7, input A with 56
bytes: the length field no longer fits, so two blocks. -/
theorem test_digesthex :
    (nextOf (exec .digesthex State.reset)).map State.rspLeft =
      some ("e3b0c44298fc1c149afbf4c8996fb92427ae41e4649b934ca495991b7852b855".toList.map fun c =>
        BitVec.ofNat 8 c.toNat) ∧
    (nextOf (exec .digesthex (midState (letters 56) 0x1c0#64))).map State.rspLeft =
      some ("b35439a4ac6f0948b6d6f9e3c6af0f5f590ce20f1bde7090ef7970686ec6738a".toList.map fun c =>
        BitVec.ofNat 8 c.toNat) := by decide +kernel

/-- Section 6: the padding blocks of 55 and of 56 buffered bytes. -/
theorem test_padding_blocks :
    paddingBlocks (letters 55) 0x1b8#64 = [letters 55 ++ [0x80#8] ++ List.replicate 6 0#8 ++ [0x01#8, 0xb8#8]] ∧
    paddingBlocks (letters 56) 0x1c0#64 =
      [letters 56 ++ [0x80#8] ++ List.replicate 7 0#8, List.replicate 62 0#8 ++ [0x01#8, 0xc0#8]] := by decide +kernel

/-! Faults, reset, ports. -/

/-- P5: 0x0301 is illegal and sets FAULT to 1; the byte absorbed before stays. -/
theorem test_illegal_word_sets_fault :
    (nextOf (step ((midState [0x61#8] 8#64).withFetchWord 16 0x0301))).map State.arch =
      some ⟨iv, [0x61#8], 8#64, .illegalCmd⟩ := by decide

/-- P5: a faulted engine ignores ABSORB and INIT. -/
theorem test_fault_is_sticky :
    (nextOf (step ((faultedState .illegalCmd).withFetchWord 16 0x0262))).map State.arch =
      some (faultedState .illegalCmd).arch ∧
    (nextOf (step ((faultedState .lenOverflow).withFetchWord 16 0x0100))).map State.arch =
      some (faultedState .lenOverflow).arch := by decide

/-- P5: reset clears the fault and gives the create state. -/
theorem test_reset_clears_fault :
    (nextOf (step { faultedState .illegalCmd with inputs := [resetInput] })).map State.arch = some State.reset.arch := by
  decide

/-- 30_encoding.md R63: a byte is taken, the last one completes the response. -/
theorem test_response_bytes_are_taken_in_order :
    nextOf (step { State.reset with rspLeft := [1#8, 2#8], inputs := [takeByteInput] }) =
      some { State.reset with rspLeft := [2#8], rspTaken := [1#8] } ∧
    nextOf (step { State.reset with rspLeft := [2#8], rspTaken := [1#8], inputs := [takeByteInput] }) =
      some { State.reset with responses := [[1#8, 2#8]] } := by decide

/-- 30_encoding.md R63: `cmd_ready` is low while a response is pending, so the command is not issued. -/
theorem test_command_held_back :
    nextOf (step { State.reset with rspLeft := [1#8], inputs := [presentCommand 0x0000#16] }) =
      some { State.reset with rspLeft := [1#8] } := by decide

/-! Witnesses: for each statement with hypotheses, states and operands that meet them together, at the boundaries of
their clauses. -/

theorem wit_DecodeFollowsOpcodeMap :
    decode 0x0100#16 = some .init ∧ 0x0100#16 &&& 0xFFFF#16 = 0x0100#16 ∧ decode 0x0200#16 = some (.absorb 0x00#8) ∧
    decode 0x02ff#16 = some (.absorb 0xff#8) ∧ 0x02ff#16 &&& 0xFF00#16 = 0x0200#16 ∧ decode 0x0300#16 = some .digest ∧
    decode 0x0400#16 = some .digesthex := by decide

theorem wit_DecodeAndEncodeAgree :
    (Instr.absorb 0xff#8).wellFormed = true ∧ decode (encode (.absorb 0xff#8)) = some (.absorb 0xff#8) ∧
    Instr.init.wellFormed = true ∧ CmdWord.legal (encode .init) = true := by decide

theorem wit_IllegalWordsRaiseIllegalCmd :
    (midState [0x61#8] 8#64).fault = .none ∧ decode 0x00ff#16 = none ∧ decode 0x0500#16 = none ∧
    decode 0x0101#16 = none ∧ decode 0x0301#16 = none ∧ decode 0x04ff#16 = none := by decide

theorem wit_AssemblerEmitsTheStatedWords :
    (SrcLine.absorb (.num 255)).wf = true ∧ (SrcLine.word 65535).wf = true ∧ (SrcBytes.rep 64 (.chr 'a')).wf = true ∧
    (SrcBytes.str []).wf = true ∧ (0x20 ≤ ' '.toNat ∧ '~'.toNat ≤ 0x7E) ∧ (SrcByte.num 0).wf = true ∧ (SrcBytes.str [' ', '~']).wf = true ∧ SrcLine.wf (.absorb (.num 256)) = false := by
  decide

theorem wit_Add32IsTheSumModulo : [1#32, 2#32].Perm [2#32, 1#32] := List.Perm.swap _ _ _

theorem wit_RotrMovesBits :
    rotr 1#32 1 = 0x80000000#32 ∧ rotr 0x80000000#32 31 = 1#32 ∧ (rotr 1#32 1).getLsbD 31 = (1#32).getLsbD ((31 + 1) % 32) := by
  decide

theorem wit_SigmaFunctionsBitByBit :
    (0 < 32 ∧ 31 < 32) ∧ (ssig0 0x80000000#32).getLsbD 28 = true ∧ (ssig0 0x80000000#32).getLsbD 31 = false := by decide

/-- The statements about table entries cover the first and the last of them. -/
theorem wit_IvIsFromSquareRoots : 0 < 8 ∧ 7 < 8 ∧ iv.word 0 = 0x6a09e667#32 ∧ iv.word 7 = 0x5be0cd19#32 := by decide

theorem wit_KIsFromCubeRoots : 0 < 64 ∧ 63 < 64 ∧ primes.getD 0 0 = 2 ∧ primes.getD 63 0 = 311 := by decide

theorem wit_WordsAndBytesAreBigEndian :
    abcBlock.length = 64 ∧ 15 < 16 ∧ memRead4 abcBlock 0 = 0x61626380#32 ∧ memRead4 abcBlock 60 = 0x18#32 ∧ 7 < 8 ∧ 3 < 4 ∧
    memWrite [1#8] 2 0x1234 = [1#8, 0x12#8, 0x34#8] := by decide

theorem wit_LengthFieldIsBigEndian :
    ([] : List Byte).length ≤ 63 ∧ (letters 55).length ≤ 63 ∧ (letters 56).length ≤ 63 ∧ (letters 63).length ≤ 63 ∧
    (paddingBlocks [] 0x0123456789abce00#64).getLast? =
      some ([0x80#8] ++ List.replicate 55 0#8 ++ [0x01#8, 0x23#8, 0x45#8, 0x67#8, 0x89#8, 0xab#8, 0xce#8, 0x00#8]) := by
  decide +kernel

theorem wit_ScheduleIsBlockThenRecurrence : abcBlock.length = 64 ∧ 15 < 16 ∧ 16 ≤ 63 ∧ 63 < 64 := by decide

theorem wit_InitStartsAMessage :
    State.reset.fault = .none ∧ exec .init State.reset = .next { State.reset with responses := [[]] } ∧
    exec .init { State.reset with responses := [[]] } = .next { State.reset with responses := [[], []] } ∧
    (midState [0x61#8] 8#64).fault = .none := ⟨rfl, rfl, rfl, rfl⟩

/-- No room; room for exactly one more byte; the byte completes no block, and the byte completes one. -/
theorem wit_AbsorbAppendsOrCompresses :
    (midState (letters 63) 0xfffffffffffffff8#64).bitcnt.toNat + 8 > 2 ^ 64 - 1 ∧
    (midState (letters 62) 0xfffffffffffffff0#64).fault = .none ∧
    (midState (letters 63) 0xfffffffffffffff8#64).fault = .none ∧
    (midState (letters 62) 0xfffffffffffffff0#64).bitcnt.toNat + 8 ≤ 2 ^ 64 - 1 ∧
    ((midState (letters 62) 0xfffffffffffffff0#64).buf ++ [0x00#8]).length ≠ 64 ∧
    (midState (letters 63) 504#64).bitcnt.toNat + 8 ≤ 2 ^ 64 - 1 ∧
    ((midState (letters 63) 504#64).buf ++ [0x00#8]).length = 64 ∧ (midState (letters 63) 504#64).fault = .none := by
  decide +kernel

/-- The state at the last count meets the invariant of 10_state.md R14 and overflows. -/
theorem wit_LenOverflowOnlyAtTheLastCount :
    (midState (letters 63) 0xfffffffffffffff8#64).arch.Inv ∧
    (midState (letters 63) 0xfffffffffffffff8#64).bitcnt.toNat + 8 > 2 ^ 64 - 1 ∧
    (midState (letters 63) 0xfffffffffffffff8#64).fault = .none ∧
    (nextOf (issue 0x0200#16 (midState (letters 63) 0xfffffffffffffff8#64))).map State.fault = some .lenOverflow :=
  ⟨⟨by decide, by decide, by decide, by decide⟩, by decide, rfl, by decide +kernel⟩

theorem wit_UpdateEqualsDocUpdate :
    State.reset.fault = .none ∧ State.reset.buf.length < 64 ∧
    State.reset.bitcnt.toNat + 8 * [0x61#8].length ≤ 2 ^ 64 - 1 ∧
    (midState (letters 62) 0xfffffffffffffff0#64).bitcnt.toNat % 8 = 0 ∧ (letters 62).length < 64 ∧
    (midState (letters 62) 0xfffffffffffffff0#64).bitcnt.toNat + 8 * [0#8, 0#8].length > 2 ^ 64 - 1 := by decide

theorem wit_DocUpdateConsumesWholeBlocks :
    State.reset.arch.bitcnt.toNat + 8 * (letters 64).length ≤ 2 ^ 64 - 1 ∧
    (midState (letters 62) 0xfffffffffffffff0#64).arch.bitcnt.toNat + 8 * [0#8].length ≤ 2 ^ 64 - 1 := by decide

theorem wit_StateIsAFunctionOfTheMessage :
    Instr.init ∉ [Instr.absorb 0x61#8, .digest, .digesthex] ∧
    8 * (absorbedBytes [Instr.absorb 0x61#8, .digest, .digesthex]).length ≤ 2 ^ 64 - 8 ∧
    (midState [0x78#8] 8#64).fault = .none ∧ State.reset.arch = State.reset.arch := by decide

/-- The longest message of the bound is witnessed by its length alone. -/
theorem wit_EachMessageByteIsCompressedOnce :
    8 * (letters 65).length ≤ 2 ^ 64 - 8 ∧ State.reset.arch = State.reset.arch ∧
    (midState [0x78#8] 8#64).fault = .none ∧ 63 < 64 * ((letters 65).length / 64) ∧ 0 < (letters 65).length / 64 ∧
    8 * (2 ^ 61 - 1) ≤ 2 ^ 64 - 8 := by decide

/-- The counter has room for exactly the bytes of both; the message so far is not empty. -/
theorem wit_UpdateSplitsAnywhere :
    (midState [] 0xffffffffffffffe8#64).arch.bitcnt.toNat + 8 * ([0x61#8].length + [0x62#8].length) ≤ 2 ^ 64 - 1 ∧
    (midState (letters 63) 504#64).arch.buf.length < 64 ∧ (midState [0x78#8] 8#64).arch = archOfMessage [0x78#8] ∧
    8 * ([0x78#8].length + [0x61#8].length + ([] : List Byte).length) ≤ 2 ^ 64 - 8 := by decide

/-- One block at 55 bytes, two at 56 and at 63; 120 bytes leave 56 of them in the buffer. -/
theorem wit_DigestCompressesThePaddingBlocks :
    (midState (letters 63) 504#64).fault = .none ∧ (midState (letters 63) 504#64).buf.length ≤ 63 ∧
    (paddingBlocks (letters 55) 0#64).length = 1 ∧ (paddingBlocks (letters 56) 0#64).length = 2 ∧
    120 % 64 = (letters 56).length ∧ 64 ∣ 192 ∧ 120 + 9 ≤ 192 := by decide +kernel

theorem wit_DigesthexRendersTheDigest : (midState [0x61#8] 8#64).fault = .none ∧ 31 < 32 := by decide

theorem wit_DigestLeavesTheLiveState :
    (midState [0x61#8] 8#64).fault = .none ∧ (nextOf (exec .digest (midState [0x61#8] 8#64))).isSome = true ∧
    (nextOf (exec .digesthex (midState [0x61#8] 8#64))).isSome = true ∧
    (nextOf (transact (encode .digest) (midState [0x61#8] 8#64))).isSome = true ∧ State.reset.rspLeft = [] ∧
    (nextOf (runWords (updateWords [0x61#8] ++ encode .digest :: updateWords [0x62#8]) State.reset)).isSome = true ∧
    (nextOf (runWords (updateWords ([0x61#8] ++ [0x62#8])) State.reset)).isSome = true := by decide +kernel

theorem wit_DigestIsAFunctionOfTheMessage :
    (midState [0x61#8] 8#64).arch = archOfMessage [0x61#8] ∧ 8 * [0x61#8].length ≤ 2 ^ 64 - 8 ∧
    (55 + 1 + padZeros 55 + 8) % 64 = 0 ∧ (56 + 1 + padZeros 56 + 8) % 64 = 0 := by decide

theorem wit_HashIsInitUpdateDigest :
    (midState [0x78#8] 8#64).fault = .none ∧ (midState [0x78#8] 8#64).rspLeft = [] ∧ 8 * (letters 3).length ≤ 2 ^ 64 - 8 := by
  decide

theorem wit_ResponsesHaveFixedLength :
    State.reset.rspLeft = [] ∧ State.reset.fault = .none ∧ decode 0x0300#16 = some .digest ∧
    decode 0x0400#16 = some .digesthex ∧ decode 0x0261#16 ≠ some .digest ∧ decode 0x0261#16 ≠ some .digesthex ∧
    (faultedState .lenOverflow).rspLeft = [] ∧ (faultedState .lenOverflow).fault ≠ .none := by decide

/-- Two states that differ in what was answered before and in what the host will drive. -/
theorem wit_EngineSeesOnlyItsArchitecturalState :
    State.reset.arch = { State.reset with responses := [[]], inputs := [resetInput] }.arch ∧
    (nextOf (transact 0x0261#16 State.reset)).isSome = true ∧
    (nextOf (transact 0x0261#16 { State.reset with responses := [[]], inputs := [resetInput] })).isSome = true := by
  decide

theorem wit_FaultEntryRecordsOnlyTheCode :
    (nextOf (issue 0x0301#16 State.reset)).map State.fault = some .illegalCmd ∧
    (nextOf (issue 0x0261#16 (midState [] 0xfffffffffffffff8#64))).map State.fault = some .lenOverflow ∧
    State.reset.fault = .none ∧ (midState [] 0xfffffffffffffff8#64).fault = .none := by decide +kernel

theorem wit_FaultedEngineIgnoresEveryWord :
    (faultedState .illegalCmd).fault ≠ .none ∧ (faultedState .lenOverflow).fault ≠ .none := by decide

theorem wit_OnlyResetClearsTheFault :
    (faultedState .lenOverflow).fault ≠ .none ∧
    (nextOf (step { faultedState .lenOverflow with inputs := [resetInput] })).map State.fault = some .none ∧
    (nextOf (step { faultedState .lenOverflow with inputs := [presentCommand 0x0100#16] })).map State.fault =
      some .lenOverflow := by decide

/-- One sample for each branch of the order of checks: reset, faulted, illegal, overflow, and the command itself. -/
theorem wit_ChecksAreMadeInOrder :
    (nextOf (step { State.reset with inputs := [⟨true, some 0x0000#16, false⟩] })).map State.fault = some .none ∧
    (nextOf (step { faultedState .lenOverflow with inputs := [presentCommand 0x0000#16] })).map State.fault =
      some .lenOverflow ∧
    (nextOf (step { midState [] 0xfffffffffffffff8#64 with inputs := [presentCommand 0x0500#16] })).map State.fault =
      some .illegalCmd ∧
    (nextOf (step { midState [] 0xfffffffffffffff8#64 with inputs := [presentCommand 0x0200#16] })).map State.fault =
      some .lenOverflow ∧
    (nextOf (step { State.reset with inputs := [presentCommand 0x0261#16] })).map State.buf = some [0x61#8] := by
  decide +kernel

theorem resetArchInv : State.reset.arch.Inv := ⟨by decide, by decide, by decide, by decide⟩

/-- A message that an INIT starts anew, and the last byte that fits. -/
theorem wit_LegalCommandsRaiseNoFault :
    State.reset.fault = .none ∧ State.reset.arch.Inv ∧
    (∀ w ∈ [0x0261#16, 0x0100#16, 0x0262#16, 0x0300#16, 0x0400#16], CmdWord.legal w = true) ∧
    (∀ k ≤ 5, messageLength (State.reset.bitcnt.toNat / 8)
      ([0x0261#16, 0x0100#16, 0x0262#16, 0x0300#16, 0x0400#16].take k) < 2 ^ 61) ∧
    messageLength (2 ^ 61 - 2) [0x0261#16] < 2 ^ 61 ∧ ¬ messageLength (2 ^ 61 - 2) [0x0261#16, 0x0262#16] < 2 ^ 61 :=
  ⟨rfl, resetArchInv, List.all_eq_true.1 (by decide), by decide, by decide, by decide⟩

theorem wit_FaultOutputShowsTheCode :
    State.reset.faultOut = 0#2 ∧ (faultedState .illegalCmd).faultOut = 1#2 ∧ (faultedState .lenOverflow).faultOut = 2#2 :=
  by decide

theorem wit_ResetOverridesEverything :
    nextOf (step { faultedState .illegalCmd with
      rspLeft := [1#8], rspTaken := [2#8], responses := [[]], inputs := [⟨true, some 0x0261#16, true⟩] }) =
      some { State.reset with responses := [[]] } := by decide

theorem wit_ResetAndInitDifferOnlyInTheFault :
    (nextOf (exec .init (midState [0x61#8] 8#64))).isSome = true ∧
    (nextOf (exec .init (faultedState .illegalCmd))).isSome = true ∧ (midState [0x61#8] 8#64).fault = .none ∧
    (faultedState .illegalCmd).fault ≠ .none := by decide

theorem wit_StepRunsTheDecodedCommand :
    (presentCommand 0x0261#16).rst = false ∧ (presentCommand 0x0261#16).cmd = some 0x0261#16 ∧ State.reset.rspLeft = [] ∧
    State.reset.fault = .none ∧ decode 0x0261#16 = some (.absorb 0x61#8) ∧ decodeTableWord 16 0x0261 = some (.absorb 0x61#8) ∧
    (nextOf (step (State.reset.withFetchWord 16 0x0261))).map State.buf = some [0x61#8] := by decide

/-- A command presented while a response is pending, with the byte not taken, taken as one of several, and taken as the
last one. -/
theorem wit_HandshakeHoldsCommandsBack :
    nextOf (step { State.reset with rspLeft := [1#8, 2#8], inputs := [⟨false, some 0x0261#16, false⟩] }) =
      some { State.reset with rspLeft := [1#8, 2#8] } ∧
    nextOf (step { State.reset with rspLeft := [1#8, 2#8], inputs := [⟨false, some 0x0261#16, true⟩] }) =
      some { State.reset with rspLeft := [2#8], rspTaken := [1#8] } ∧
    nextOf (step { State.reset with rspLeft := [1#8], inputs := [⟨false, some 0x0261#16, true⟩] }) =
      some { State.reset with responses := [[1#8]] } := by decide

theorem wit_CommandScriptIsOneTransaction :
    State.reset.rspLeft = [] ∧ State.reset.rspTaken = [] ∧ (nextOf (issue 0x0261#16 State.reset)).isSome = true ∧
    (nextOf (issue 0x0300#16 State.reset)).isSome = true := by decide

theorem wit_IdleEngineKeepsItsState :
    State.reset.inputs = [] ∧
    nextOf (step { midState [0x61#8] 8#64 with inputs := [takeByteInput, resetInput] }) =
      some { midState [0x61#8] 8#64 with inputs := [resetInput] } := by decide

theorem wit_StepKeepsTheArchitecturalInvariant :
    { midState [] 0#64 with inputs := [presentCommand 0x0261#16] }.arch.Inv ∧
    (nextOf (step { midState [] 0#64 with inputs := [presentCommand 0x0261#16] })).isSome = true :=
  ⟨resetArchInv, by decide⟩

theorem wit_StepKeepsThePortInvariant :
    { State.reset with inputs := [presentCommand 0x0300#16] }.PortInv ∧
    (nextOf (step { State.reset with inputs := [presentCommand 0x0300#16] })).isSome = true :=
  ⟨⟨.inl rfl, fun _ => rfl, fun _ => rfl, fun _ h => nomatch h⟩, by decide⟩

theorem wit_ReachableStatesMeetTheInvariant :
    (nextOf (Sys2Proof.core.run 2
      { State.reset with inputs := [presentCommand 0x0261#16, presentCommand 0x0301#16] })).map State.arch =
      some ⟨iv, [0x61#8], 8#64, .illegalCmd⟩ := by decide

/-- `H` changes by reset, by INIT and by the ABSORB of a 64th byte. -/
theorem wit_ChainIsWrittenInThreeSituations :
    (nextOf (step { otherChainState with inputs := [resetInput] })).map State.h = some iv ∧
    (nextOf (step { otherChainState with inputs := [presentCommand 0x0100#16] })).map State.h = some iv ∧
    (nextOf (step { midState (List.replicate 63 0#8) 504#64 with inputs := [presentCommand 0x0200#16] })).map State.h ≠
      some iv := by decide +kernel

theorem wit_CountGrowsByEightOrIsCleared :
    (nextOf (step { midState [0x61#8] 8#64 with inputs := [presentCommand 0x0261#16] })).map State.bitcnt = some 16#64 ∧
    (nextOf (step { midState [0x61#8] 8#64 with inputs := [presentCommand 0x0100#16] })).map State.bitcnt = some 0#64 ∧
    (nextOf (step { midState [0x61#8] 8#64 with inputs := [resetInput] })).map State.bitcnt = some 0#64 := by decide

theorem wit_CommandFrames :
    (nextOf (exec .init (midState [0x61#8] 8#64))).isSome = true ∧
    (nextOf (exec (.absorb 0x62#8) (midState [0x61#8] 8#64))).map State.buf = some [0x61#8, 0x62#8] ∧
    (midState [0x61#8] 8#64).fill ≠ 63 ∧ 0 < (midState [0x61#8] 8#64).fill ∧
    (nextOf (exec (.absorb 0x62#8) (midState [] 0xfffffffffffffff8#64))).map State.fault = some .lenOverflow ∧
    (nextOf (exec .digest (midState [0x61#8] 8#64))).isSome = true ∧
    (nextOf (exec .digesthex (midState [0x61#8] 8#64))).isSome = true := by decide +kernel

end Sys2Proof.Tests
end

section
/-! The family of 10_state.md: what a step can do to the architectural registers, said once, and from it the invariant of
R14, the writers of `H` (R11) and of `BITCNT` (R13), the frames of the commands (R24), and the constant tables. -/

namespace Sys2Proof.Machine

/-! What a decoded command does, one equation for each of its outcomes (beside `exec_digest_of_none` and
`exec_digesthex_of_none`). -/

/-- A faulted engine ignores every command (60_exceptions.md R145). -/
theorem exec_of_fault {s : State} (hf : s.fault ≠ .none) (i : Instr) :
    exec i s = .next { s with responses := s.responses ++ [[]] } := by
  cases i <;> exact unlessFaulted_of_fault hf _

theorem exec_init_of_none {s : State} (hf : s.fault = .none) :
    exec .init s = .next { s with h := iv, buf := [], bitcnt := 0#64, responses := s.responses ++ [[]] } :=
  unlessFaulted_of_none hf _

/-- ABSORB without room in the counter (60_exceptions.md R143). -/
theorem exec_absorb_of_overflow {s : State} (hf : s.fault = .none) (hc : countOverflows s.bitcnt = true) (b : Byte) :
    exec (.absorb b) s = .next { s with fault := .lenOverflow, responses := s.responses ++ [[]] } := by
  rw [exec, execAbsorb, unlessFaulted_of_none hf, if_pos hc, raiseFault_of_none hf]

/-- ABSORB with room in the counter (41_init_update.md R91). -/
theorem exec_absorb_of_room {s : State} (hf : s.fault = .none) (hc : ¬ countOverflows s.bitcnt = true) (b : Byte) :
    exec (.absorb b) s = .next ((s.takeMessageByte b).respond []) := by
  rw [exec, execAbsorb, unlessFaulted_of_none hf, if_neg hc]

/-- DIGEST and DIGESTHEX only respond: on an unfaulted engine with some bytes `r`, on a faulted one with none. -/
theorem digest_or_digesthex_of_next {s t : State} (h : exec .digest s = .next t ∨ exec .digesthex s = .next t) :
    (s.fault = .none ∧ ∃ r, t = { s with rspLeft := r, rspTaken := [] }) ∨
    (s.fault ≠ .none ∧ t = { s with responses := s.responses ++ [[]] }) := by
  by_cases hf : s.fault = .none
  · rw [exec_digest_of_none hf, exec_digesthex_of_none hf] at h
    obtain h | h := h <;> cases h <;> exact .inl ⟨hf, _, rfl⟩
  · rw [exec_of_fault hf, exec_of_fault hf, or_self] at h
    cases h
    exact .inr ⟨hf, rfl⟩

/-! The registers `H`, `BUF` and `BITCNT` across one step. -/

@[simp] theorem takeRspByte_h (s : State) : s.takeRspByte.h = s.h := congrArg Arch.h (takeRspByte_arch s)
@[simp] theorem takeRspByte_buf (s : State) : s.takeRspByte.buf = s.buf := congrArg Arch.buf (takeRspByte_arch s)
@[simp] theorem takeRspByte_bitcnt (s : State) : s.takeRspByte.bitcnt = s.bitcnt :=
  congrArg Arch.bitcnt (takeRspByte_arch s)

/-- What a step can do to `H`, `BUF` and `BITCNT`, with the sample that makes it do so (10_state.md R11, R13, R24). The
many ways of leaving the three as they are, fault entry among them, are one case. -/
inductive RegisterCase (s t : State) : Prop where
  /-- All three are kept. -/
  | kept (hh : t.h = s.h) (hb : t.buf = s.buf) (hn : t.bitcnt = s.bitcnt)
  /-- Reset, or INIT on an unfaulted engine. -/
  | cleared (p : HostInput) (rest : List HostInput) (hi : s.inputs = p :: rest)
      (hp : p.rst = true ∨ ∃ w, p.cmd = some w ∧ s.fault = .none ∧ decode w = some .init)
      (hh : t.h = iv) (hb : t.buf = []) (hn : t.bitcnt = 0#64)
  /-- ABSORB on an unfaulted engine with room in the counter. -/
  | absorbed (p : HostInput) (rest : List HostInput) (w : CmdWord) (b : Byte) (hi : s.inputs = p :: rest)
      (hp : p.cmd = some w) (hf : s.fault = .none) (hd : decode w = some (.absorb b))
      (hc : s.bitcnt.toNat + 8 ≤ 2 ^ 64 - 1) (hn : t.bitcnt = s.bitcnt + 8#64)
      (hw : (s.fill ≠ 63 ∧ t.h = s.h ∧ t.buf = s.buf ++ [b]) ∨
        (s.fill = 63 ∧ t.h = compress s.h (s.buf ++ [b]) ∧ t.buf = []))

/-- A byte completes a block exactly when 63 bytes are buffered. -/
theorem append_completes_iff (s : State) (b : Byte) : (s.buf ++ [b]).length = 64 ↔ s.fill = 63 := by
  simp [State.fill]

/-- The registers across a step, by the case the step is in. -/
theorem registerCase_of_next {s t : State} (h : step s = .next t) : RegisterCase s t := by
  cases stepCase_of_next h with
  | done hi ht => subst ht; exact .kept rfl rfl rfl
  | reset p rest hi hr ht => subst ht; exact .cleared p rest hi (.inl hr) rfl rfl rfl
  | unchanged p rest hi hr hw ht => subst ht; exact .kept rfl rfl rfl
  | take p rest hi hr hl ht => subst ht; exact .kept (takeRspByte_h _) (takeRspByte_buf _) (takeRspByte_bitcnt _)
  | command p rest w hi hr hp hl hc =>
    cases hc with
    | ignored hf ht => subst ht; exact .kept rfl rfl rfl
    | illegal hf hd ht => subst ht; exact .kept rfl rfl rfl
    | init hf hd ht => subst ht; exact .cleared p rest hi (.inr ⟨w, hp, hf, hd⟩) rfl rfl rfl
    | overflow b hf hd hc ht => subst ht; exact .kept rfl rfl rfl
    | append b hf hd hc hl ht =>
      subst ht
      exact .absorbed p rest w b hi hp hf hd hc rfl (.inl ⟨mt (append_completes_iff s b).2 hl, rfl, rfl⟩)
    | block b hf hd hc hl ht =>
      subst ht
      exact .absorbed p rest w b hi hp hf hd hc rfl (.inr ⟨(append_completes_iff s b).1 hl, rfl, rfl⟩)
    | digest hf hd ht => subst ht; exact .kept rfl rfl rfl
    | digesthex hf hd ht => subst ht; exact .kept rfl rfl rfl

/-! The invariant of R14. -/

/-- The invariant in terms of `BITCNT` and `FILL`. -/
theorem arch_inv_iff (s : State) :
    s.arch.Inv ↔ s.bitcnt.toNat % 8 = 0 ∧ s.fill = s.bitcnt.toNat / 8 % 64 ∧ s.bitcnt.toNat ≤ 2 ^ 64 - 8 ∧
      s.fill ≤ 63 := by
  have hwf : Memory.wf s.buf = true ↔ s.fill ≤ 63 := by simp [Memory.wf, State.fill]; omega
  exact ⟨fun ⟨h8, hfill, hmax, hb⟩ => ⟨h8, hfill, hmax, hwf.1 hb⟩,
    fun ⟨h8, hfill, hmax, hb⟩ => ⟨h8, hfill, hmax, hwf.2 hb⟩⟩

/-- An empty buffer and a cleared counter meet the invariant. -/
theorem arch_inv_of_cleared {s : State} (hb : s.buf = []) (hn : s.bitcnt = 0#64) : s.arch.Inv := by
  simp [arch_inv_iff, State.fill, hb, hn]

/-- Settles O48: of the three cases of `RegisterCase`, the first carries the invariant over, the second establishes it,
and in the third the counter grows by 8 while `FILL` grows by 1 modulo 64. -/
theorem stepKeepsTheArchitecturalInvariant : Obligations.StepKeepsTheArchitecturalInvariant := by
  intro s t hs h
  cases registerCase_of_next h with
  | kept hh hb hn => rwa [arch_inv_iff, State.fill, hb, hn, ← State.fill, ← arch_inv_iff]
  | cleared p rest hi hp hh hb hn => exact arch_inv_of_cleared hb hn
  | absorbed p rest w b hi hp hf hd hc hn hw =>
    rw [arch_inv_iff] at hs ⊢
    have hcount : t.bitcnt.toNat = s.bitcnt.toNat + 8 := by rw [hn, count_add_eight hc]
    have hfill : t.fill = (s.fill + 1) % 64 := by
      obtain ⟨hne, -, hb⟩ | ⟨heq, -, hb⟩ := hw
      · have : t.fill = s.fill + 1 := by simp [State.fill, hb]
        omega
      · have : t.fill = 0 := by simp [State.fill, hb]
        omega
    omega

/-- Settles O50: the buffer and the counter are cleared, and the response port is empty. -/
theorem resetMeetsTheInvariant : Obligations.ResetMeetsTheInvariant where
  arch := arch_inv_of_cleared rfl rfl
  port := {
    pendingLength := .inl rfl
    noneTaken := fun _ => rfl
    faultSilent := fun _ => rfl
    recordedLengths := fun _ hr => nomatch hr }

/-- Settles O51: the invariant holds at reset and every step keeps it; `BITCNT[8:3]` is `(BITCNT / 8) mod 64`. -/
theorem reachableStatesMeetTheInvariant : Obligations.ReachableStatesMeetTheInvariant := by
  intro n ins t h
  have hreset : (State.arch { State.reset with inputs := ins }).Inv := arch_inv_of_cleared rfl rfl
  have hinv : t.arch.Inv := run_keeps (P := fun s => s.arch.Inv) stepKeepsTheArchitecturalInvariant n hreset h
  rw [BitVec.extractLsb'_toNat, Nat.shiftRight_eq_div_pow]
  exact (arch_inv_iff t).1 hinv

/-! The writers of `H` and of `BITCNT`. -/

/-- Settles O52: `H` is not kept, so the registers are cleared or a block is completed. -/
theorem chainIsWrittenInThreeSituations : Obligations.ChainIsWrittenInThreeSituations := by
  intro s t h hne
  cases registerCase_of_next h with
  | kept hh hb hn => exact absurd hh hne
  | cleared p rest hi hp hh hb hn =>
    refine ⟨p, rest, hi, ?_⟩
    obtain hr | ⟨w, hw, hf, hd⟩ := hp
    · exact .inl ⟨hr, hh⟩
    · exact .inr (.inl ⟨w, hw, hf, hd, hh⟩)
  | absorbed p rest w b hi hp hf hd hc hn hw =>
    obtain ⟨-, hh, -⟩ | ⟨hfill, hh, -⟩ := hw
    · exact absurd hh hne
    · exact ⟨p, rest, hi, .inr (.inr ⟨w, b, hp, hf, hd, hfill, hh⟩)⟩

/-- Settles O53: the overflow check leaves room for the 8 that ABSORB adds. -/
theorem countGrowsByEightOrIsCleared : Obligations.CountGrowsByEightOrIsCleared := by
  intro s t h
  cases registerCase_of_next h with
  | kept hh hb hn => exact .inl hn
  | cleared p rest hi hp hh hb hn =>
    exact .inr (.inr ⟨p, rest, hi, hn, hp.imp_right fun ⟨w, hw, _, hd⟩ => ⟨w, hw, hd⟩⟩)
  | absorbed p rest w b hi hp hf hd hc hn hw =>
    exact .inr (.inl ⟨p, rest, w, b, hi, hp, hd, by rw [hn, count_add_eight hc]⟩)

/-! The frames of the commands. -/

/-- An ABSORB that completes no block keeps `H` and appends. -/
theorem takeMessageByte_frame {s : State} (hfill : s.fill ≠ 63) (b : Byte) :
    (s.takeMessageByte b).h = s.h ∧ (s.takeMessageByte b).buf = s.buf ++ [b] := by
  rw [takeMessageByte_of_ne (mt (append_completes_iff s b).1 hfill)]
  exact ⟨rfl, rfl⟩

theorem exec_init_frame {s t : State} (h : exec .init s = .next t) :
    t.fault = s.fault ∧ t.rspLeft = s.rspLeft ∧ t.rspTaken = s.rspTaken ∧ t.inputs = s.inputs ∧
    t.responses = s.responses ++ [[]] := by
  by_cases hf : s.fault = .none
  · cases (exec_init_of_none hf).symm.trans h
    simp
  · cases (exec_of_fault hf _).symm.trans h
    simp

theorem exec_absorb_frame {s t : State} {b : Byte} (h : exec (.absorb b) s = .next t) :
    t.rspLeft = s.rspLeft ∧ t.rspTaken = s.rspTaken ∧ t.inputs = s.inputs ∧ t.responses = s.responses ++ [[]] ∧
    (t.fault ≠ s.fault → t.fault = .lenOverflow ∧ t.h = s.h ∧ t.buf = s.buf ∧ t.bitcnt = s.bitcnt) ∧
    (s.fill ≠ 63 → t.h = s.h ∧ ∀ a, a < s.fill → t.buf[a]? = s.buf[a]?) := by
  by_cases hf : s.fault = .none
  · by_cases hc : countOverflows s.bitcnt = true
    · cases (exec_absorb_of_overflow hf hc b).symm.trans h
      simp
    · cases (exec_absorb_of_room hf hc b).symm.trans h
      refine ⟨by simp, by simp, by simp, by simp, by simp, fun hfill => ?_⟩
      obtain ⟨hh, hb⟩ := takeMessageByte_frame hfill b
      exact ⟨hh, fun a ha => by simp only [respond_nil, hb, List.getElem?_append_left ha]⟩
  · cases (exec_of_fault hf _).symm.trans h
    simp

theorem exec_digest_frame {s t : State} (h : exec .digest s = .next t ∨ exec .digesthex s = .next t) :
    t.h = s.h ∧ t.bitcnt = s.bitcnt ∧ t.fault = s.fault ∧ t.inputs = s.inputs ∧ (∀ a : Nat, t.buf[a]? = s.buf[a]?) ∧
    (s.fault = .none → t.responses = s.responses) := by
  obtain ⟨hf, r, rfl⟩ | ⟨hf, rfl⟩ := digest_or_digesthex_of_next h <;> simp [hf]

/-- Settles O54, one frame lemma for each clause. -/
theorem commandFrames : Obligations.CommandFrames :=
  ⟨fun _ _ => exec_init_frame, fun _ _ _ => exec_absorb_frame, fun _ _ => exec_digest_frame⟩

/-! The constant tables. Mathlib's `Nat.nthRoot` is the integer root that R16 and R17 name. -/

theorem iv_word_eq_nthRoot :
    ∀ j < 8, (iv.word j).toNat = Nat.nthRoot 2 ([2, 3, 5, 7, 11, 13, 17, 19].getD j 0 * 2 ^ 64) % 2 ^ 32 := by
  decide +kernel

theorem kConst_eq_nthRoot : ∀ i < 64, (kConst i).toNat = Nat.nthRoot 3 (primes.getD i 0 * 2 ^ 96) % 2 ^ 32 := by
  decide +kernel

theorem primes_sorted : primes.Pairwise (· < ·) := by decide

theorem mem_primes_iff : ∀ n, n ≤ 311 → (n ∈ primes ↔ n.Prime) := by decide +kernel

/-- Settles O11: the root is `Nat.nthRoot 2`. -/
theorem ivIsFromSquareRoots : Obligations.IvIsFromSquareRoots := fun j hj =>
  ⟨Nat.nthRoot 2 _, Nat.pow_nthRoot_le (.inl two_ne_zero), Nat.lt_pow_nthRoot_add_one two_ne_zero _,
    iv_word_eq_nthRoot j hj⟩

/-- Settles O12: the root is `Nat.nthRoot 3`. -/
theorem kIsFromCubeRoots : Obligations.KIsFromCubeRoots :=
  ⟨rfl, rfl, primes_sorted, mem_primes_iff, fun i hi =>
    ⟨Nat.nthRoot 3 _, Nat.pow_nthRoot_le (.inl three_ne_zero), Nat.lt_pow_nthRoot_add_one three_ne_zero _,
      kConst_eq_nthRoot i hi⟩⟩

/-! The fault output and the reset state. -/

theorem code_ne_three (c : FaultCode) : c.code ≠ 3#2 := by cases c <;> decide

theorem code_eq_zero_iff (c : FaultCode) : c.code = 0#2 ↔ c = .none := by cases c <;> decide

/-- Settles O39: the output is the code of FAULT, and only the code of no fault is 0. -/
theorem faultOutputShowsTheCode : Obligations.FaultOutputShowsTheCode := fun _ =>
  ⟨congrArg FaultCode.code, congrArg FaultCode.code, congrArg FaultCode.code, code_ne_three _,
    (code_eq_zero_iff _).symm⟩

/-- Settles O40: the values are those of the definition of `State.reset` and of `iv`. -/
theorem resetStateHasTheStatedValues : Obligations.ResetStateHasTheStatedValues := ⟨rfl, rfl, rfl, rfl, rfl⟩

end Sys2Proof.Machine
end

section
/-! The family of 20_memory.md: the byte order (R31 to R33, R37), the consumption of message bytes (R43), the commands
as functions of the architectural state (R42), and a transaction sample by sample (R39). -/

namespace Sys2Proof.Machine

/-! Byte order. -/

/-- A byte put behind a bit vector, as integers. -/
theorem append_byte_toNat {w : Nat} (x : BitVec w) (b : Byte) : (x ++ b).toNat = x.toNat * 2 ^ 8 + b.toNat := by
  rw [BitVec.toNat_append, ← Nat.shiftLeft_add_eq_or_of_lt b.isLt, Nat.shiftLeft_eq]

/-- The four bytes of a word by their values (20_memory.md R31). -/
theorem memRead4_toNat (blk : List Byte) (a : Nat) :
    (memRead4 blk a).toNat = (blockByte blk a).toNat * 2 ^ 24 + (blockByte blk (a + 1)).toNat * 2 ^ 16 +
      (blockByte blk (a + 2)).toNat * 2 ^ 8 + (blockByte blk (a + 3)).toNat := by
  simp only [memRead4, append_byte_toNat]
  ring

/-- Byte `m` of the bytes of a word is eight of its bits, counted from the most significant end (20_memory.md R37). -/
theorem beBytes_getD (n v : Nat) {m : Nat} (hm : m < n) :
    (beBytes n v).getD m 0#8 = BitVec.ofNat 8 (v / 2 ^ (8 * (n - 1 - m))) := by
  simp [beBytes, hm]

/-- `beBytes_getD` of a bit vector. -/
theorem beBytes_toNat_getD {w : Nat} (x : BitVec w) {n m : Nat} (hm : m < n) :
    (beBytes n x.toNat).getD m 0#8 = x.extractLsb' (8 * (n - 1 - m)) 8 := by
  rw [beBytes_getD n _ hm, BitVec.extractLsb', Nat.shiftRight_eq_div_pow]

/-- Bytes of words written one after another: byte `m` of the `n` bytes of word `j`. -/
theorem flatMap_beBytes_getD (n : Nat) (ws : List Word) {j m : Nat} (hj : j < ws.length) (hm : m < n) :
    (ws.flatMap fun w => beBytes n w.toNat).getD (n * j + m) 0#8 = (beBytes n (ws.getD j 0#32).toNat).getD m 0#8 := by
  induction ws generalizing j with
  | nil => simp at hj
  | cons w ws ih =>
    rw [List.flatMap_cons]
    cases j with
    | zero => rw [List.getD_append _ _ _ _ (by simpa using hm)]; simp
    | succ j =>
      have hi : n * (j + 1) + m = n + (n * j + m) := by ring
      rw [List.getD_append_right _ _ _ _ (by simp [hi]), beBytes_length, hi, Nat.add_sub_cancel_left,
        ih (by simpa using hj)]
      simp

/-- The bytes of a serialised chaining value (20_memory.md R33). -/
theorem serialise_getD (c : Chain) {j m : Nat} (hj : j < 8) (hm : m < 4) :
    (serialise c).getD (4 * j + m) 0#8 = (c.word j).extractLsb' (24 - 8 * m) 8 := by
  have hb : 24 - 8 * m = 8 * (4 - 1 - m) := by omega
  rw [serialise, flatMap_beBytes_getD 4 c.toList hj hm, ← Chain.word, beBytes_toNat_getD _ hm, hb]

/-- The bytes an append adds (20_memory.md R37). -/
theorem memWrite_getD (s : List Byte) (n v : Nat) {m : Nat} (hm : m < n) :
    (memWrite s n v).getD (s.length + m) 0#8 = BitVec.ofNat 8 (v / 2 ^ (8 * (n - 1 - m))) := by
  rw [memWrite, List.getD_append_right _ _ _ _ (by omega), Nat.add_sub_cancel_left, beBytes_getD n v hm]

/-- Settles O13: reads, serialisation and appends, each by the lemma about its bytes. -/
theorem wordsAndBytesAreBigEndian : Obligations.WordsAndBytesAreBigEndian :=
  ⟨fun blk t _ _ => memRead4_toNat blk (4 * t), serialise_length, fun c _ _ => serialise_getD c, fun s n v =>
    ⟨by simp [memWrite], by simp [memWrite], fun m hm => by rw [memWrite_getD s n v hm, BitVec.toNat_ofNat]⟩⟩

/-- The recurrence only adds words behind those already computed. -/
theorem foldl_recurrence_prefix (is : List Nat) (w : List Word) :
    w <+: is.foldl (fun w i => w ++ [recurrence w i]) w := by
  induction is generalizing w with
  | nil => exact List.prefix_refl w
  | cons i is ih => exact (List.prefix_append w _).trans (ih _)

/-- The first 16 words of a schedule are those of the block (42_compression.md R101). -/
theorem schedule_getD_of_lt (blk : List Byte) {t : Nat} (ht : t < 16) :
    (schedule blk).getD t 0#32 = memRead4 blk (4 * t) := by
  obtain ⟨more, hmore⟩ : blockWords blk <+: schedule blk := foldl_recurrence_prefix _ _
  rw [← hmore, List.getD_append _ _ _ _ (by simpa using ht)]
  simp [blockWords, ht]

/-- Four bytes that are adjacent groups of eight bits make up the 32 bits they span. -/
theorem memRead4_of_extractLsb' {w : Nat} (x : BitVec w) (blk : List Byte) (a k : Nat)
    (h : ∀ m < 4, blockByte blk (a + m) = x.extractLsb' (k + 24 - 8 * m) 8) :
    memRead4 blk a = x.extractLsb' k 32 := by
  rw [memRead4, show blockByte blk a = _ from h 0 (by decide), h 1 (by decide), h 2 (by decide), h 3 (by decide),
    BitVec.extractLsb'_append_extractLsb'_eq_extractLsb' (by omega),
    BitVec.extractLsb'_append_extractLsb'_eq_extractLsb' (by omega),
    BitVec.extractLsb'_append_extractLsb'_eq_extractLsb' (by omega)]
  rfl

/-- The last padding block is 56 bytes and then the length field (43_finalize.md R128). -/
theorem paddingBlocks_getLast (b : List Byte) (l : Count) (hb : b.length ≤ 63) :
    ∃ front, front.length = 56 ∧ (paddingBlocks b l).getLast? = some (front ++ beBytes 8 l.toNat) := by
  unfold paddingBlocks
  split
  · exact ⟨_, by simp; omega, rfl⟩
  · exact ⟨_, List.length_replicate, rfl⟩

/-- Settles O14: behind 56 bytes, the length field's byte `m` is byte `56 + m` of the block, and words 14 and 15 are the
two groups of four of these bytes. -/
theorem lengthFieldIsBigEndian : Obligations.LengthFieldIsBigEndian := by
  intro b l hb
  obtain ⟨front, hfront, hlast⟩ := paddingBlocks_getLast b l hb
  have hbyte : ∀ m < 8, (front ++ beBytes 8 l.toNat).getD (56 + m) 0#8 = l.extractLsb' (56 - 8 * m) 8 := by
    intro m hm
    have hk : 56 - 8 * m = 8 * (8 - 1 - m) := by omega
    rw [List.getD_append_right _ _ _ _ (by omega), hfront, Nat.add_sub_cancel_left, beBytes_toNat_getD l hm, hk]
  refine ⟨_, hlast, by simp [hfront], hbyte, ?_, ?_⟩
  · rw [schedule_getD_of_lt _ (by decide)]
    exact memRead4_of_extractLsb' l _ _ _ fun m hm => hbyte m (by omega)
  · rw [schedule_getD_of_lt _ (by decide)]
    refine memRead4_of_extractLsb' l _ _ _ fun m hm => ?_
    have hk : 56 - 8 * (4 + m) = 0 + 24 - 8 * m := by omega
    rw [← hk, ← hbyte (4 + m) (by omega), ← Nat.add_assoc]
    rfl

/-! The consumption of message bytes. -/

theorem opField_packWord (op data : Byte) : opField (packWord op data) = op :=
  BitVec.extractLsb'_append_eq_left

theorem dataField_packWord (op data : Byte) : dataField (packWord op data) = data :=
  BitVec.extractLsb'_append_eq_right

/-- The decoder undoes the encoder (30_encoding.md R55). -/
@[simp] theorem decode_encode (i : Instr) : decode (encode i) = some i := by
  cases i <;> simp [encode, decode, opField_packWord, dataField_packWord]

/-- Bytes added at the end change no whole block before them. -/
theorem messageBlock_append {m : List Byte} {q : Nat} (h : 64 * (q + 1) ≤ m.length) (x : List Byte) :
    messageBlock (m ++ x) q = messageBlock m q := by
  rw [messageBlock, List.drop_append_of_le_length (by omega),
    List.take_append_of_le_length (by rw [List.length_drop]; omega), ← messageBlock]

theorem chainAfter_append {m : List Byte} {q : Nat} (h : 64 * q ≤ m.length) (x : List Byte) :
    chainAfter (m ++ x) q = chainAfter m q := by
  induction q with
  | zero => rfl
  | succ q ih => rw [chainAfter, chainAfter, ih (by omega), messageBlock_append h]

theorem chainAfter_eq_foldl (m : List Byte) (n : Nat) :
    chainAfter m n = ((List.range n).map (messageBlock m)).foldl compress iv := by
  induction n with
  | zero => rfl
  | succ n ih => simp [List.range_succ, chainAfter, ih]

theorem flatMap_messageBlock (m : List Byte) (n : Nat) :
    (List.range n).flatMap (messageBlock m) = m.take (64 * n) := by
  induction n with
  | zero => simp
  | succ n ih => simp [List.range_succ, ih, Nat.mul_succ, List.take_add, messageBlock]

theorem messageBlock_length {m : List Byte} {q : Nat} (h : 64 * (q + 1) ≤ m.length) :
    (messageBlock m q).length = 64 := by
  rw [messageBlock, List.length_take, List.length_drop]
  omega

/-- Byte `p` of a message is byte `p mod 64` of block `p div 64`. -/
theorem messageBlock_getD (m : List Byte) (p : Nat) :
    (messageBlock m (p / 64)).getD (p % 64) 0#8 = m.getD p 0#8 := by
  simp [messageBlock, List.getD_eq_getElem?_getD, Nat.mod_lt, Nat.div_add_mod]

/-- The state of the empty message is the reset state (41_init_update.md R96). -/
theorem archOfMessage_nil : archOfMessage [] = State.reset.arch := rfl

/-- `FILL` in the state of a message (10_state.md R14). -/
theorem archOfMessage_buf_length (m : List Byte) : (archOfMessage m).buf.length = m.length % 64 := by
  simp only [archOfMessage, List.length_drop]
  omega

theorem archOfMessage_bitcnt_append (m : List Byte) (b : Byte) :
    (archOfMessage (m ++ [b])).bitcnt = (archOfMessage m).bitcnt + 8#64 := by
  simp [archOfMessage, Nat.mul_add, BitVec.ofNat_add]

/-- One more message byte, which completes no block. -/
theorem archOfMessage_append_of_ne {m : List Byte} (h : m.length % 64 ≠ 63) (b : Byte) :
    (archOfMessage (m ++ [b])).h = (archOfMessage m).h ∧
    (archOfMessage (m ++ [b])).buf = (archOfMessage m).buf ++ [b] := by
  have hq : (m ++ [b]).length / 64 = m.length / 64 := by simp; omega
  have hle : 64 * (m.length / 64) ≤ m.length := Nat.mul_div_le _ _
  simp only [archOfMessage, hq]
  exact ⟨chainAfter_append hle _, List.drop_append_of_le_length hle⟩

/-- One more message byte, which completes a block: the old buffer and the byte. -/
theorem archOfMessage_append_of_eq {m : List Byte} (h : m.length % 64 = 63) (b : Byte) :
    (archOfMessage (m ++ [b])).h = compress (archOfMessage m).h ((archOfMessage m).buf ++ [b]) ∧
    (archOfMessage (m ++ [b])).buf = [] := by
  have hlen : (m ++ [b]).length = 64 * (m.length / 64 + 1) := by simp; omega
  have hq : (m ++ [b]).length / 64 = m.length / 64 + 1 := by omega
  have hle : 64 * (m.length / 64) ≤ m.length := Nat.mul_div_le _ _
  have hblock : messageBlock (m ++ [b]) (m.length / 64) = m.drop (64 * (m.length / 64)) ++ [b] := by
    rw [messageBlock, ← List.drop_append_of_le_length hle, List.take_of_length_le]
    rw [List.length_drop]
    omega
  simp only [archOfMessage, hq]
  exact ⟨by rw [chainAfter, hblock, chainAfter_append hle], List.drop_of_length_le hlen.le⟩

/-- ABSORB's writes on the state of a message give the state of the message with the byte at its end. -/
theorem takeMessageByte_arch_of_message {s : State} {m : List Byte} (hs : s.arch = archOfMessage m) (b : Byte) :
    (s.takeMessageByte b).arch = archOfMessage (m ++ [b]) := by
  have hfill : s.fill = m.length % 64 := by rw [State.fill, ← arch_buf, hs, archOfMessage_buf_length]
  have hcount := archOfMessage_bitcnt_append m b
  have hf : s.fault = .none := congrArg Arch.fault hs
  by_cases h : m.length % 64 = 63
  · obtain ⟨hh, hb⟩ := archOfMessage_append_of_eq h b
    rw [← hs] at hh hcount
    rw [takeMessageByte_of_eq ((append_completes_iff s b).2 (hfill.trans h))]
    exact Arch.ext hh.symm hb.symm hcount.symm hf
  · obtain ⟨hh, hb⟩ := archOfMessage_append_of_ne h b
    rw [← hs] at hh hb hcount
    rw [takeMessageByte_of_ne (mt (append_completes_iff s b).1 (hfill ▸ h))]
    exact Arch.ext hh.symm hb.symm hcount.symm hf

/-- ABSORB in the state of a message, with room in the counter (41_init_update.md R96). -/
theorem transact_absorb_of_message {s : State} {m : List Byte} (hs : s.arch = archOfMessage m)
    (hroom : 8 * (m.length + 1) ≤ 2 ^ 64 - 8) (b : Byte) :
    ∃ t, transact (encode (.absorb b)) s = .next t ∧ t.arch = archOfMessage (m ++ [b]) := by
  have hf : s.fault = .none := congrArg Arch.fault hs
  have hn : s.bitcnt.toNat = 8 * m.length := by
    rw [← arch_bitcnt, hs, archOfMessage, BitVec.toNat_ofNat, Nat.mod_eq_of_lt (by omega)]
  have hc : ¬ countOverflows s.bitcnt = true := by
    rw [countOverflows_iff, hn]
    omega
  rw [transact, issue_of_decode (decode_encode _), exec_absorb_of_room hf hc, andThen_next]
  exact ⟨_, rfl, by rw [drain_arch, respond_arch, takeMessageByte_arch_of_message hs]⟩

/-- UPDATE behind a message, with room in the counter (41_init_update.md R96). -/
theorem runWords_updateWords_of_message {s : State} {m : List Byte} (hs : s.arch = archOfMessage m) (x : List Byte)
    (hroom : 8 * (m.length + x.length) ≤ 2 ^ 64 - 8) :
    ∃ t, runWords (updateWords x) s = .next t ∧ t.arch = archOfMessage (m ++ x) := by
  induction x generalizing s m with
  | nil => exact ⟨s, rfl, by rw [hs, List.append_nil]⟩
  | cons b x ih =>
    rw [List.length_cons] at hroom
    obtain ⟨u, hu, hua⟩ := transact_absorb_of_message hs (by omega) b
    obtain ⟨t, ht, hta⟩ := ih hua (by simp; omega)
    refine ⟨t, ?_, by rw [hta, List.append_assoc, List.singleton_append]⟩
    rw [updateWords, List.map_cons, runWords, hu, andThen_next, ← updateWords, ht]

/-- INIT on an unfaulted engine reaches the state of the empty message (41_init_update.md R90). -/
theorem transact_init_of_none {s : State} (hf : s.fault = .none) :
    ∃ t, transact (encode .init) s = .next t ∧ t.arch = archOfMessage [] := by
  rw [transact, issue_of_decode (decode_encode _), exec_init_of_none hf, andThen_next]
  refine ⟨_, rfl, ?_⟩
  rw [drain_arch]
  exact Arch.ext rfl rfl rfl hf

/-- The state of a message is its consumed blocks, in order, and what is left (20_memory.md R43). -/
theorem consumed_of_message {t : State} {m : List Byte} (ht : t.arch = archOfMessage m) :
    t.fault = .none ∧ t.buf.length < 64 ∧
    m = (List.range (m.length / 64)).flatMap (messageBlock m) ++ t.buf ∧
    t.h = ((List.range (m.length / 64)).map (messageBlock m)).foldl compress iv := by
  have hbuf : t.buf = m.drop (64 * (m.length / 64)) := congrArg Arch.buf ht
  refine ⟨congrArg Arch.fault ht, ?_, ?_, ?_⟩
  · rw [hbuf, List.length_drop]
    omega
  · rw [hbuf, flatMap_messageBlock, List.take_append_drop]
  · rw [← chainAfter_eq_foldl]
    exact congrArg Arch.h ht

/-- Settles O26: the words lead to the state of the message `m`, which is `consumed_of_message`. -/
theorem eachMessageByteIsCompressedOnce : Obligations.EachMessageByteIsCompressedOnce := by
  intro s m ws hm hws
  have hrun : ∃ t, runWords ws s = .next t ∧ t.arch = archOfMessage m := by
    obtain ⟨hs, rfl⟩ | ⟨hf, rfl⟩ := hws
    · exact runWords_updateWords_of_message (hs.trans archOfMessage_nil.symm) m (by simpa using hm)
    · obtain ⟨u, hu, hua⟩ := transact_init_of_none hf
      rw [runWords, hu, andThen_next]
      exact runWords_updateWords_of_message hua m (by simpa using hm)
  obtain ⟨t, ht, hta⟩ := hrun
  obtain ⟨hf, hlt, hparts, hh⟩ := consumed_of_message hta
  exact ⟨t, ht, hf, hlt, hparts, fun q hq => messageBlock_length (by omega), hh, fun p _ => messageBlock_getD m p⟩

/-! A transaction as a function of the architectural state. -/

/-- A state with the given architectural part and nothing else: nothing is pending, recorded or driven. -/
def Arch.toState (a : Arch) : State :=
  { State.reset with h := a.h, buf := a.buf, bitcnt := a.bitcnt, fault := a.fault }

theorem digestBytes_toState (s : State) : digestBytes s.arch.toState = digestBytes s := digestBytes_congr rfl rfl rfl

theorem digestHexBytes_toState (s : State) : digestHexBytes s.arch.toState = digestHexBytes s := by
  rw [digestHexBytes, digestBytes_toState, ← digestHexBytes]

/-- The architectural state after a decoded command on an unfaulted engine, and the response; `none` is a word that is
no command (60_exceptions.md R147, 30_encoding.md R56). -/
def Arch.effect (a : Arch) : Option Instr → Arch × List Byte
  | none => ({ a with fault := .illegalCmd }, [])
  | some .init => ({ a with h := iv, buf := [], bitcnt := 0#64 }, [])
  | some (.absorb b) =>
    (if countOverflows a.bitcnt then { a with fault := .lenOverflow } else (a.toState.takeMessageByte b).arch, [])
  | some .digest => (a, digestBytes a.toState)
  | some .digesthex => (a, digestHexBytes a.toState)

/-- The architectural state after a command word, and the response, as a function of the architectural state before it
(20_memory.md R42); a faulted engine ignores the word (60_exceptions.md R145). -/
def Arch.outcome (a : Arch) (w : CmdWord) : Arch × List Byte :=
  if a.fault = .none then a.effect (decode w) else (a, [])

theorem outcome_of_fault {s : State} (hf : s.fault ≠ .none) (w : CmdWord) : s.arch.outcome w = (s.arch, []) :=
  if_neg hf

theorem outcome_of_none {s : State} {w : CmdWord} {d : Option Instr} (hf : s.fault = .none) (hd : decode w = d) :
    s.arch.outcome w = s.arch.effect d := by
  rw [Arch.outcome, hd]
  exact if_pos hf

theorem effect_absorb_of_overflow {s : State} (hc : s.bitcnt.toNat + 8 > 2 ^ 64 - 1) (b : Byte) :
    s.arch.effect (some (.absorb b)) = ({ s.arch with fault := .lenOverflow }, []) :=
  congrArg (·, []) (if_pos ((countOverflows_iff _).2 hc))

theorem effect_absorb_of_room {s : State} (hc : s.bitcnt.toNat + 8 ≤ 2 ^ 64 - 1) (b : Byte) :
    s.arch.effect (some (.absorb b)) = ((s.arch.toState.takeMessageByte b).arch, []) :=
  congrArg (·, []) (if_neg (mt (countOverflows_iff _).1 (Nat.not_lt.2 hc)))

theorem effect_digest (s : State) : s.arch.effect (some .digest) = (s.arch, digestBytes s) := by
  rw [Arch.effect, digestBytes_toState]

theorem effect_digesthex (s : State) : s.arch.effect (some .digesthex) = (s.arch, digestHexBytes s) := by
  rw [Arch.effect, digestHexBytes_toState]

/-- A whole transaction is the word and the taking of its response. -/
theorem transact_of_issue {w : CmdWord} {s u : State} (h : issue w s = .next u) : transact w s = .next u.drain := by
  rw [transact, h, andThen_next]

/-- A transaction with no response pending before it has the outcome its architectural state gives. -/
theorem transact_outcome {w : CmdWord} {s t : State} (hl : s.rspLeft = []) (h : transact w s = .next t) :
    t.arch = (s.arch.outcome w).1 ∧ t.responses = s.responses ++ [(s.arch.outcome w).2] := by
  obtain ⟨u, hu, hcase⟩ := issue_cases w s
  cases (transact_of_issue hu).symm.trans h
  rw [drain_arch]
  cases hcase with
  | ignored hf ht => rw [outcome_of_fault hf, ht, drain_of_nil (by exact hl)]; exact ⟨rfl, rfl⟩
  | illegal hf hd ht => rw [outcome_of_none hf hd, ht, drain_of_nil (by exact hl)]; exact ⟨rfl, rfl⟩
  | init hf hd ht => rw [outcome_of_none hf hd, ht, drain_of_nil (by exact hl)]; exact ⟨rfl, rfl⟩
  | overflow b hf hd hc ht =>
    rw [outcome_of_none hf hd, effect_absorb_of_overflow hc, ht, drain_of_nil (by exact hl)]
    exact ⟨rfl, rfl⟩
  | append b hf hd hc hn ht =>
    rw [outcome_of_none hf hd, effect_absorb_of_room hc, takeMessageByte_of_ne (by exact hn), ht,
      drain_of_nil (by exact hl)]
    exact ⟨rfl, rfl⟩
  | block b hf hd hc hn ht =>
    rw [outcome_of_none hf hd, effect_absorb_of_room hc, takeMessageByte_of_eq (by exact hn), ht,
      drain_of_nil (by exact hl)]
    exact ⟨rfl, rfl⟩
  | digest hf hd ht =>
    rw [outcome_of_none hf hd, effect_digest, ht, drain_of_pending _ _ (digestBytes_ne_nil s)]
    exact ⟨rfl, rfl⟩
  | digesthex hf hd ht =>
    rw [outcome_of_none hf hd, effect_digesthex, ht, drain_of_pending _ _ (digestHexBytes_ne_nil s)]
    exact ⟨rfl, rfl⟩

/-- Settles O33: next state and response are the outcome of the same architectural state. -/
theorem engineSeesOnlyItsArchitecturalState : Obligations.EngineSeesOnlyItsArchitecturalState := by
  intro w s s' t t' ha hl hl' h h'
  obtain ⟨hta, htr⟩ := transact_outcome hl h
  obtain ⟨hta', htr'⟩ := transact_outcome hl' h'
  rw [← ha] at hta' htr'
  exact ⟨hta.trans hta'.symm, _, htr, htr'⟩

/-! A transaction sample by sample. -/

theorem issue_keeps_inputs {w : CmdWord} {s t : State} (h : issue w s = .next t) : t.inputs = s.inputs := by
  have ht : t = { t with inputs := s.inputs } := Host.Outcome.next.inj (h.symm.trans (issue_inputs h s.inputs))
  rw [ht]

/-- The host's samples to come have no part in the taking of a byte. -/
theorem takeRspByte_withInputs (s : State) (ins : List HostInput) :
    State.takeRspByte { s with inputs := ins } = { s.takeRspByte with inputs := ins } := by
  unfold State.takeRspByte
  split <;> simp_all

/-- Taking one byte of a pending response and then the rest is taking it whole (30_encoding.md R63). -/
theorem drain_takeRspByte (s : State) : s.takeRspByte.drain = s.drain := by
  cases hl : s.rspLeft with
  | nil => simp [State.takeRspByte, hl]
  | cons b more =>
    cases more with
    | nil => rw [takeRspByte_last hl, drain_of_nil rfl, drain_of_ne (by simp [hl]), hl]
    | cons c more =>
      rw [takeRspByte_more hl, drain_of_ne (by simp), drain_of_ne (by simp [hl]), hl]
      simp

theorem takeRspByte_rspLeft (s : State) : s.takeRspByte.rspLeft = s.rspLeft.tail := by
  unfold State.takeRspByte
  split <;> simp_all

/-- As many samples as bytes are pending, each taking one, take the response whole (70_reset_and_hazards.md R165). -/
theorem run_takeBytes {n : Nat} {s : State} {rest : List HostInput} (hn : s.rspLeft.length = n)
    (hi : s.inputs = List.replicate n takeByteInput ++ rest) :
    Sys2Proof.core.run n s = .next (State.drain { s with inputs := rest }) := by
  induction n generalizing s with
  | zero =>
    have hl : s.rspLeft = [] := List.eq_nil_of_length_eq_zero hn
    rw [drain_of_nil (by exact hl), ← show s.inputs = rest from hi]
    rfl
  | succ n ih =>
    have hl : s.rspLeft ≠ [] := List.ne_nil_of_length_eq_add_one hn
    refine (run_next (step_of_take (rest := List.replicate n takeByteInput ++ rest) hi rfl hl rfl)).trans ?_
    refine (ih (by simp [takeRspByte_rspLeft, hn]) (takeRspByte_inputs _)).trans ?_
    rw [← drain_takeRspByte { s with inputs := rest }, takeRspByte_withInputs s rest, takeRspByte_withInputs s _]

/-- Settles O45: the first sample issues the word, which the host's list does not change, and each of the others takes a
byte. -/
theorem commandScriptIsOneTransaction : Obligations.CommandScriptIsOneTransaction := by
  intro w s u rest hl _ hu
  have hi : u.inputs = rest := issue_keeps_inputs hu
  have hstep : step { s with inputs := commandScript w u.rspLeft.length ++ rest } =
      .next { u with inputs := List.replicate u.rspLeft.length takeByteInput ++ rest } :=
    (step_of_command (p := presentCommand w) rfl rfl rfl (by exact hl)).trans (issue_inputs hu _)
  rw [Nat.add_comm, run_next hstep, transact_of_issue hu, ← hi]
  exact run_takeBytes rfl rfl

end Sys2Proof.Machine
end

section
/-! The family of 30_encoding.md: the command words (R50 to R55), the assembler (R57 to R59), the responses
(R56) and the handshake of the ports (R63). -/

namespace Sys2Proof.Machine

/-! The two fields of a command word. -/

theorem packWord_toNat (op data : Byte) : (packWord op data).toNat = op.toNat * 256 + data.toNat :=
  append_byte_toNat op data

/-- A command word is its two fields (30_encoding.md R50). -/
theorem packWord_fields (w : CmdWord) : packWord (opField w) (dataField w) = w := by
  rw [packWord, opField, dataField, BitVec.extractLsb'_append_extractLsb'_eq_extractLsb' (by omega)]
  exact BitVec.extractLsb'_eq_self

theorem packWord_inj {op data op' data' : Byte} :
    packWord op data = packWord op' data' ↔ op = op' ∧ data = data' := by
  refine ⟨fun h => ?_, fun ⟨hop, hdata⟩ => hop ▸ hdata ▸ rfl⟩
  have hop := congrArg opField h
  have hdata := congrArg dataField h
  rw [opField_packWord, opField_packWord] at hop
  rw [dataField_packWord, dataField_packWord] at hdata
  exact ⟨hop, hdata⟩

/-- A mask acts on the two fields apart (30_encoding.md R51). -/
theorem packWord_and (op data op' data' : Byte) :
    packWord op data &&& packWord op' data' = packWord (op &&& op') (data &&& data') :=
  BitVec.and_append

theorem opField_toNat (w : CmdWord) : (opField w).toNat = w.toNat / 256 := by
  have hw := packWord_toNat (opField w) (dataField w)
  rw [packWord_fields] at hw
  omega

theorem dataField_toNat (w : CmdWord) : (dataField w).toNat = w.toNat % 256 := by
  have hw := packWord_toNat (opField w) (dataField w)
  rw [packWord_fields] at hw
  omega

/-! The decoder and the encoder. -/

/-- The decoder finds exactly the command whose word it is given (30_encoding.md R55). -/
theorem decode_eq_some_iff {w : CmdWord} {i : Instr} : decode w = some i ↔ encode i = w := by
  refine ⟨fun h => ?_, fun h => h ▸ decode_encode i⟩
  conv_rhs => rw [← packWord_fields w]
  unfold decode at h
  split_ifs at h with hinit habsorb hdigest hhex <;> cases h
  · rw [encode, hinit.1, hinit.2]
  · rw [encode, habsorb]
  · rw [encode, hdigest.1, hdigest.2]
  · rw [encode, hhex.1, hhex.2]

theorem decode_isSome_iff {w : CmdWord} : (decode w).isSome = true ↔ ∃ i, encode i = w := by
  simp only [Option.isSome_iff_exists, decode_eq_some_iff]

theorem encode_injective : Function.Injective encode := fun i j h =>
  Option.some.inj (by rw [← decode_encode i, h, decode_encode j])

/-- The word of every command is legal and in the row of its mnemonic. -/
theorem encodesToARow (i : Instr) : Laws.EncodesToARow.Statement i := by
  cases i with
  | init => exact Laws.EncodesToARow.init
  | absorb b => exact Laws.EncodesToARow.absorb b
  | digest => exact Laws.EncodesToARow.digest
  | digesthex => exact Laws.EncodesToARow.digesthex

/-- The illegal words of 30_encoding.md R53. -/
theorem decode_eq_none_iff (w : CmdWord) : decode w = none ↔
    (w.toNat / 256 = 0 ∨ w.toNat / 256 ≥ 5 ∨
      ((w.toNat / 256 = 1 ∨ w.toNat / 256 = 3 ∨ w.toNat / 256 = 4) ∧ w.toNat % 256 ≠ 0)) := by
  simp only [decode, ← BitVec.toNat_inj, opField_toNat, dataField_toNat, BitVec.toNat_ofNat]
  split_ifs <;> simp only [true_iff, false_iff] <;> omega

/-- The legality of a word, written from R53, is what the decoder decides (30_encoding.md R53, R55). -/
theorem decode_isSome_iff_legal (w : CmdWord) : (decode w).isSome = true ↔ CmdWord.legal w = true := by
  have hlegal : CmdWord.legal w = false ↔ decode w = none := by
    rw [decode_eq_none_iff]
    simp only [CmdWord.legal, Bool.not_eq_false', Bool.or_eq_true, Bool.and_eq_true, decide_eq_true_eq, or_assoc]
  rw [Option.isSome_iff_ne_none, ← Bool.not_eq_false, not_iff_not, hlegal]

/-- Settles O2: `decode_encode`, its converse `decode_eq_some_iff`, and the decoder against R53's list. -/
theorem decodeAndEncodeAgree : Obligations.DecodeAndEncodeAgree := by
  refine ⟨fun i _ => decode_encode i, fun w i h => ⟨decode_eq_some_iff.1 h, ?_⟩, decode_isSome_iff_legal⟩
  obtain ⟨hwf, -, -⟩ := encodesToARow i
  exact hwf

/-- A row whose mask is all ones has one word. -/
theorem and_ones_eq_iff (w m : CmdWord) : w &&& 0xFFFF#16 = m ↔ m = w := by
  rw [show w &&& 0xFFFF#16 = w from BitVec.and_allOnes, eq_comm]

/-- The words of ABSORB's row, with the operand (30_encoding.md R51, R52). -/
theorem encode_absorb_eq_iff (w : CmdWord) (b : Byte) :
    encode (.absorb b) = w ↔ w &&& 0xFF00#16 = 0x0200#16 ∧ b.toNat = w.toNat % 256 := by
  have hmask : w &&& 0xFF00#16 = packWord (opField w) 0#8 := by
    conv_lhs => rw [← packWord_fields w, show 0xFF00#16 = packWord 0xFF#8 0#8 from rfl, packWord_and]
    rw [show opField w &&& 0xFF#8 = opField w from BitVec.and_allOnes, BitVec.and_zero]
  have hword : encode (.absorb b) = w ↔ 0x02#8 = opField w ∧ b = dataField w := by
    rw [encode, ← packWord_inj, packWord_fields]
  have hrow : packWord (opField w) 0#8 = 0x0200#16 ↔ 0x02#8 = opField w := by
    rw [show 0x0200#16 = packWord 0x02#8 0#8 from rfl, packWord_inj, eq_comm]
    simp
  rw [hword, hmask, hrow, ← dataField_toNat, BitVec.toNat_inj]

/-- Settles O1: a word is the command's word exactly when it meets the mask and match of the command's row. -/
theorem decodeFollowsOpcodeMap : Obligations.DecodeFollowsOpcodeMap := by
  refine ⟨fun w => ?_, fun w b => ?_, fun w => ?_, fun w => ?_, fun w i h => ?_⟩
  · exact decode_eq_some_iff.trans (and_ones_eq_iff w _).symm
  · exact decode_eq_some_iff.trans (encode_absorb_eq_iff w b)
  · exact decode_eq_some_iff.trans (and_ones_eq_iff w _).symm
  · exact decode_eq_some_iff.trans (and_ones_eq_iff w _).symm
  · obtain ⟨-, -, hrow⟩ := encodesToARow i
    exact decode_eq_some_iff.1 h ▸ hrow

/-! The legal words, counted. -/

/-- Every command once: the three without operand, and ABSORB of each of the 256 bytes. -/
def allInstrs : List Instr :=
  .init :: .digest :: .digesthex :: (List.finRange 256).map fun b => .absorb (BitVec.ofFin b)

theorem mem_allInstrs (i : Instr) : i ∈ allInstrs := by
  cases i with
  | init => simp [allInstrs]
  | absorb b => simp [allInstrs, show ∃ a, BitVec.ofFin a = b from ⟨b.toFin, rfl⟩]
  | digest => simp [allInstrs]
  | digesthex => simp [allInstrs]

theorem allInstrs_nodup : allInstrs.Nodup := by
  have habsorb : Function.Injective fun b : Fin 256 => Instr.absorb (BitVec.ofFin b) := fun b c h =>
    congrArg BitVec.toFin (Instr.absorb.inj h)
  simp [allInstrs, (List.nodup_finRange 256).map habsorb]

theorem allInstrs_length : allInstrs.length = 259 := by simp [allInstrs]

/-- An illegal word on an unfaulted engine (60_exceptions.md R142). -/
theorem issue_of_illegal {w : CmdWord} {s : State} (hf : s.fault = .none) (hd : decode w = none) :
    issue w s = .next { s with fault := .illegalCmd, responses := s.responses ++ [[]] } := by
  rw [issue, unlessFaulted_of_none hf, hd, ← raiseFault_of_none hf]

/-- Settles O4: the legal words are the words of all commands, no two of which share one. -/
theorem illegalWordsRaiseIllegalCmd : Obligations.IllegalWordsRaiseIllegalCmd := by
  refine ⟨decode_eq_none_iff, ⟨allInstrs.map encode, ?_, ?_, fun w => ?_⟩, fun _ _ => issue_of_illegal⟩
  · exact allInstrs_nodup.map encode_injective
  · rw [List.length_map, allInstrs_length]
  · simp only [List.mem_map, mem_allInstrs, true_and, decode_isSome_iff]

/-- Settles O3: five of the words are those of their commands, three are in R53's list. -/
theorem writtenWordsDecode : Obligations.WrittenWordsDecode :=
  ⟨decode_encode .init, decode_encode (.absorb 0x61#8), decode_encode (.absorb 0xff#8), decode_encode .digest,
    decode_encode .digesthex, (decode_eq_none_iff _).2 (by decide), (decode_eq_none_iff _).2 (by decide),
    (decode_eq_none_iff _).2 (by decide)⟩

/-! The assembler. -/

/-- A program is refused when a line is ill formed, and is otherwise the words of its lines (30_encoding.md R57). -/
theorem assemble_eq (p : List SrcLine) :
    assemble p = if p.all SrcLine.wf then some (p.flatMap SrcLine.words) else none := by
  induction p with
  | nil => rfl
  | cons l ls ih =>
    rw [assemble, ih]
    by_cases hl : l.wf = true <;> by_cases hls : ls.all SrcLine.wf = true <;> simp [hl, hls]

/-- A program can be cut anywhere. -/
theorem assemble_append (p q : List SrcLine) :
    assemble (p ++ q) = (assemble p).bind fun x => (assemble q).map (x ++ ·) := by
  simp only [assemble_eq, List.all_append, List.flatMap_append]
  by_cases hp : p.all SrcLine.wf = true <;> by_cases hq : q.all SrcLine.wf = true <;> simp [hp, hq]

theorem assemble_singleton {l : SrcLine} (hl : l.wf = true) : assemble [l] = some l.words := by
  simp [assemble_eq, hl]

/-- Two programs whose lines are well formed together and have the same words assemble alike. -/
theorem assemble_congr {p q : List SrcLine} (hwf : p.all SrcLine.wf = q.all SrcLine.wf)
    (hwords : p.flatMap SrcLine.words = q.flatMap SrcLine.words) : assemble p = assemble q := by
  rw [assemble_eq, assemble_eq, hwf, hwords]

/-- The word of ABSORB as an integer (30_encoding.md R57). -/
theorem encode_absorb_eq_ofNat (b : Byte) : encode (.absorb b) = BitVec.ofNat 16 (0x0200 + b.toNat) := by
  apply BitVec.eq_of_toNat_eq
  have hb := b.isLt
  rw [encode, packWord_toNat, BitVec.toNat_ofNat, BitVec.toNat_ofNat]
  omega

/-- ABSORB of a byte operand whose value is `n`. -/
theorem assemble_absorb {b : SrcByte} {n : Nat} (hwf : b.wf = true) (hv : b.value = BitVec.ofNat 8 n) (hn : n < 256) :
    assemble [.absorb b] = some [BitVec.ofNat 16 (0x0200 + n)] := by
  rw [assemble_singleton (l := .absorb b) hwf, SrcLine.words, encode_absorb_eq_ofNat, hv, BitVec.toNat_ofNat,
    Nat.mod_eq_of_lt hn]

/-- UPDATE of a sequence of byte operands is their ABSORB lines (30_encoding.md R58). -/
theorem assemble_update {u : SrcBytes} {bs : List SrcByte} (hwf : u.wf = bs.all SrcByte.wf)
    (hv : u.value = bs.map SrcByte.value) : assemble [.update u] = assemble (bs.map .absorb) := by
  apply assemble_congr
  · simp [SrcLine.wf, hwf, Function.comp_def]
  · simp [SrcLine.words, updateWords, hv, List.flatMap_map, ← List.map_eq_flatMap]

theorem assemble_update_of_wf {u : SrcBytes} (hu : u.wf = true) :
    assemble [.update u] = some (u.value.map fun b => BitVec.ofNat 16 (0x0200 + b.toNat)) := by
  rw [assemble_singleton (l := .update u) hu]
  simp only [SrcLine.words, updateWords, encode_absorb_eq_ofNat]

/-- HASH is INIT, UPDATE and DIGEST (30_encoding.md R59). -/
theorem assemble_hash (u : SrcBytes) : assemble [.hash u] = assemble [.init, .update u, .digest] :=
  assemble_congr (by simp [SrcLine.wf]) (by simp [SrcLine.words, hashWords])

/-- HASHHEX is INIT, UPDATE and DIGESTHEX (30_encoding.md R59). -/
theorem assemble_hashhex (u : SrcBytes) : assemble [.hashhex u] = assemble [.init, .update u, .digesthex] :=
  assemble_congr (by simp [SrcLine.wf]) (by simp [SrcLine.words, hashhexWords])

/-- Settles O5, by what a program assembles to (`assemble_eq`). -/
theorem assemblerEmitsTheStatedWords : Obligations.AssemblerEmitsTheStatedWords := by
  refine ⟨fun p q => ?_, fun p => ?_, rfl, rfl, rfl, rfl, fun n hn => ?_,
    fun c hlo hhi => ?_, fun n hn => ?_, fun bs => ?_, fun n b hb => ?_, fun cs => ?_, fun u hu => ?_⟩
  · rw [assemble_append]
    cases assemble p <;> cases assemble q <;> rfl
  · simp [assemble_eq]
  · exact assemble_absorb (by simpa [SrcByte.wf] using hn) rfl hn
  · exact assemble_absorb (by simp [SrcByte.wf, printable, hlo, hhi]) rfl (by omega)
  · exact assemble_singleton (by simpa [SrcLine.wf] using hn)
  · exact assemble_update rfl rfl
  · rw [← List.map_replicate]
    exact assemble_update (by simp [SrcBytes.wf, hb]) (by simp [SrcBytes.value])
  · rw [show (cs.map fun c => SrcLine.absorb (.chr c)) = (cs.map SrcByte.chr).map .absorb by simp]
    exact assemble_update (by simp [SrcBytes.wf, SrcByte.wf, Function.comp_def])
      (by simp [SrcBytes.value, SrcByte.value])
  · exact ⟨assemble_update_of_wf hu, assemble_hash u, assemble_hashhex u⟩

/-! The response of a command word. -/

/-- What a command word does to the response port, one case for each kind of response (30_encoding.md R56). All words
whose response is empty are one case. -/
inductive ResponseCase (w : CmdWord) (s t : State) : Prop where
  /-- DIGEST on an unfaulted engine. -/
  | digest (hf : s.fault = .none) (hd : decode w = some .digest)
      (ht : t = { s with rspLeft := digestBytes s, rspTaken := [] })
  /-- DIGESTHEX on an unfaulted engine. -/
  | digesthex (hf : s.fault = .none) (hd : decode w = some .digesthex)
      (ht : t = { s with rspLeft := digestHexBytes s, rspTaken := [] })
  /-- The response is empty. -/
  | empty (hw : s.fault ≠ .none ∨ (decode w ≠ some .digest ∧ decode w ≠ some .digesthex))
      (hl : t.rspLeft = s.rspLeft) (hk : t.rspTaken = s.rspTaken) (hr : t.responses = s.responses ++ [[]])

/-- The response of a word, by the case the word is in. -/
theorem IssueCase.responseCase {w : CmdWord} {s t : State} (h : IssueCase w s t) : ResponseCase w s t := by
  cases h with
  | ignored hf ht => subst ht; exact .empty (.inl hf) rfl rfl rfl
  | illegal hf hd ht => subst ht; exact .empty (.inr (by simp [hd])) rfl rfl rfl
  | init hf hd ht => subst ht; exact .empty (.inr (by simp [hd])) rfl rfl rfl
  | overflow b hf hd hc ht => subst ht; exact .empty (.inr (by simp [hd])) rfl rfl rfl
  | append b hf hd hc hl ht => subst ht; exact .empty (.inr (by simp [hd])) rfl rfl rfl
  | block b hf hd hc hl ht => subst ht; exact .empty (.inr (by simp [hd])) rfl rfl rfl
  | digest hf hd ht => exact .digest hf hd ht
  | digesthex hf hd ht => exact .digesthex hf hd ht

/-- Every byte of a hexadecimal rendering is a digit (43_finalize.md R130). -/
theorem hexBytes_range (bs : List Byte) :
    ∀ c ∈ hexBytes bs, (0x30 ≤ c.toNat ∧ c.toNat ≤ 0x39) ∨ (0x61 ≤ c.toNat ∧ c.toNat ≤ 0x66) := by
  intro c hc
  obtain ⟨b, -, hcb⟩ := List.mem_flatMap.1 hc
  simp only [hexPair, List.mem_cons, List.not_mem_nil, or_false] at hcb
  obtain rfl | rfl := hcb <;> exact hexDigit_range _

/-- Settles O32: of the three kinds of response, the hypothesis of each clause leaves one. -/
theorem responsesHaveFixedLength : Obligations.ResponsesHaveFixedLength := by
  intro w s hl
  obtain ⟨t, h, hcase⟩ := issue_cases w s
  refine ⟨t, h, ?_⟩
  cases hcase.responseCase with
  | digest hf hd ht =>
    subst ht
    exact ⟨fun _ _ => ⟨digestBytes_length s, rfl, rfl⟩, by simp [hd], by simp [hf, hd]⟩
  | digesthex hf hd ht =>
    subst ht
    exact ⟨by simp [hd], fun _ _ => ⟨digestHexBytes_length s, rfl, rfl, hexBytes_range _⟩, by simp [hf, hd]⟩
  | empty hw hl' hk hr =>
    refine ⟨fun hf hd => ?_, fun hf hd => ?_, fun _ => ⟨hl'.trans hl, hr⟩⟩
    · simp [hf, hd] at hw
    · simp [hf, hd] at hw

/-! The handshake. -/

/-- A step whose sample takes no byte, with `rst` low and a response pending, waits (30_encoding.md R63). -/
theorem step_of_wait {s : State} {p : HostInput} {rest : List HostInput}
    (hi : s.inputs = p :: rest) (hr : p.rst = false) (hl : s.rspLeft ≠ []) (hy : p.rspReady = false) :
    step s = .next { s with inputs := rest } := by
  have hd : s.dropInput = { s with inputs := rest } := by simp [State.dropInput, hi]
  have ha : s.portAction = .wait := by rw [portAction_cons hi, hr, hy]; simp [hl]
  rw [step, clockPorts, ha, ← hd]

/-- Settles O44: the outputs by their definitions, the step by what it does while a response is pending. -/
theorem handshakeHoldsCommandsBack : Obligations.HandshakeHoldsCommandsBack := by
  intro s p rest b more hi hr hl
  have hne : s.rspLeft ≠ [] := by simp [hl]
  have hvalid : s.rspValid = true := by simp [State.rspValid, hl]
  refine ⟨by simp [State.cmdReady, hvalid], hvalid, by simp [State.rspByte, hl], ?_, step_of_wait hi hr hne,
    fun hy hmore => ?_, fun hy hmore => ?_⟩
  · cases more <;> simp [State.rspLast, hl]
  · obtain ⟨c, more, rfl⟩ := List.exists_cons_of_ne_nil hmore
    rw [step_of_take hi hr hne hy, takeRspByte_more (by exact hl)]
  · subst hmore
    rw [step_of_take hi hr hne hy, takeRspByte_last (by exact hl)]

/-- Settles O43: the step issues the word, and issuing it runs the command it decodes to. -/
theorem stepRunsTheDecodedCommand : Obligations.StepRunsTheDecodedCommand := by
  refine ⟨fun s p rest w i hi hr hp hl _ hd => ?_, fun s n i _ hd => ?_⟩
  · rw [step_of_command hi hr hp hl, issue_of_decode hd]
  · rw [step_of_command (s := s.withFetchWord 16 n) rfl rfl rfl rfl, issue_of_decode hd]
    rfl

/-! The invariant of the response port. -/

/-- The record's part of `State.PortInv` (30_encoding.md R56). -/
def recordWf (rs : List (List Byte)) : Prop := ∀ r ∈ rs, r.length = 0 ∨ r.length = 32 ∨ r.length = 64

theorem recordWf_append {rs : List (List Byte)} (hrs : recordWf rs) {r : List Byte}
    (hr : r.length = 0 ∨ r.length = 32 ∨ r.length = 64) : recordWf (rs ++ [r]) := by
  intro x hx
  obtain hx | hx := List.mem_append.1 hx
  · exact hrs x hx
  · exact List.mem_singleton.1 hx ▸ hr

/-- The host's samples to come have no part in the invariant. -/
theorem State.PortInv.withInputs {s : State} (hs : s.PortInv) (ins : List HostInput) :
    State.PortInv { s with inputs := ins } where
  pendingLength := hs.pendingLength
  noneTaken := hs.noneTaken
  faultSilent := hs.faultSilent
  recordedLengths := hs.recordedLengths

/-- With no response pending, only the record is left to be asked about. -/
theorem portInv_of_idle {s : State} (hl : s.rspLeft = []) (hk : s.rspTaken = [])
    (hr : recordWf s.responses) : s.PortInv where
  pendingLength := .inl hl
  noneTaken := fun _ => hk
  faultSilent := fun _ => hl
  recordedLengths := hr

/-- A pending response of 32 or 64 bytes on an unfaulted engine. -/
theorem portInv_of_pending {s : State} (hf : s.fault = .none) (hl : s.rspLeft ≠ [])
    (hn : s.rspTaken.length + s.rspLeft.length = 32 ∨ s.rspTaken.length + s.rspLeft.length = 64)
    (hr : recordWf s.responses) : s.PortInv where
  pendingLength := .inr hn
  noneTaken := fun h => absurd h hl
  faultSilent := fun h => absurd hf h
  recordedLengths := hr

/-- Taking a byte keeps the length of the response, which the last byte brings to the record. -/
theorem takeRspByte_keeps_portInv {s : State} (hs : s.PortInv) (hl : s.rspLeft ≠ []) : s.takeRspByte.PortInv := by
  have hf : s.fault = .none := not_not.1 fun hf => hl (hs.faultSilent hf)
  have hn := hs.pendingLength.resolve_left hl
  obtain ⟨b, more, hb⟩ := List.exists_cons_of_ne_nil hl
  rw [hb, List.length_cons] at hn
  cases more with
  | nil =>
    rw [takeRspByte_last hb]
    exact portInv_of_idle rfl rfl (recordWf_append hs.recordedLengths (.inr (by simpa using hn)))
  | cons c more =>
    rw [takeRspByte_more hb]
    refine portInv_of_pending hf (List.cons_ne_nil _ _) ?_ hs.recordedLengths
    simp only [List.length_append, List.length_cons, List.length_nil] at hn ⊢
    omega

/-- A command word issued with no response pending keeps the invariant. -/
theorem issueCase_keeps_portInv {w : CmdWord} {s t : State} (hs : s.PortInv) (hl : s.rspLeft = [])
    (h : IssueCase w s t) : t.PortInv := by
  cases h.responseCase with
  | digest hf hd ht =>
    subst ht
    exact portInv_of_pending hf (digestBytes_ne_nil s) (.inl (by simp)) hs.recordedLengths
  | digesthex hf hd ht =>
    subst ht
    exact portInv_of_pending hf (digestHexBytes_ne_nil s) (.inr (by simp)) hs.recordedLengths
  | empty hw hl' hk hr =>
    refine portInv_of_idle (hl'.trans hl) (hk.trans (hs.noneTaken hl)) ?_
    exact hr ▸ recordWf_append hs.recordedLengths (.inl rfl)

/-- Settles O49, by the case the step is in. -/
theorem stepKeepsThePortInvariant : Obligations.StepKeepsThePortInvariant := by
  intro s t hs h
  cases stepCase_of_next h with
  | done hi ht => exact ht ▸ hs
  | reset p rest hi hr ht => subst ht; exact portInv_of_idle rfl rfl hs.recordedLengths
  | unchanged p rest hi hr hw ht => exact ht ▸ hs.withInputs rest
  | take p rest hi hr hl ht => exact ht ▸ takeRspByte_keeps_portInv (hs.withInputs rest) hl
  | command p rest w hi hr hp hl hc => exact issueCase_keeps_portInv (hs.withInputs rest) hl hc

end Sys2Proof.Machine
end

section
/-! The family of 40_word_ops.md: the integer values of `add32`, `rotr`, `shr` and `~` (R71 to R73, R75), and the bits of
the six mixing functions (R76 to R81). -/

namespace Sys2Proof.Machine

/-! Addition. -/

theorem add32_toNat (xs : List Word) : (add32 xs).toNat = (xs.map BitVec.toNat).sum % 2 ^ 32 := BitVec.toNat_ofNat _ _

/-- Reducing the first sum before the other operands are added changes nothing (40_word_ops.md R71). -/
theorem add32_cons_cons (x y : Word) (zs : List Word) : add32 (x :: y :: zs) = add32 (add32 [x, y] :: zs) := by
  apply BitVec.eq_of_toNat_eq
  simp only [add32_toNat, List.map_cons, List.map_nil, List.sum_cons, List.sum_nil, Nat.mod_add_mod, Nat.add_assoc,
    Nat.zero_add]

theorem add32_perm {xs ys : List Word} (h : xs.Perm ys) : add32 xs = add32 ys :=
  congrArg (BitVec.ofNat 32) (h.map _).sum_eq

/-- Settles O6. -/
theorem add32IsTheSumModulo : Obligations.Add32IsTheSumModulo :=
  ⟨add32_toNat, add32_cons_cons, fun _ _ => add32_perm⟩

/-! Rotation, shift and complement. The library's `BitVec.rotateRight` also takes the amount modulo the width. -/

theorem rotr_eq_rotateRight (x : Word) (n : Nat) : rotr x n = x.rotateRight n := rfl

theorem rotr_toNat (x : Word) {n : Nat} (hn : n ≤ 31) :
    (rotr x n).toNat = ((x.toNat >>> n) ||| (x.toNat <<< (32 - n))) % 2 ^ 32 := by
  have hshr : x.toNat >>> n < 2 ^ 32 := (Nat.shiftRight_le _ _).trans_lt x.isLt
  rw [rotr, Nat.mod_eq_of_lt (by omega), Nat.or_mod_two_pow, Nat.mod_eq_of_lt hshr, BitVec.toNat_or,
    BitVec.toNat_ushiftRight, BitVec.toNat_shiftLeft]

theorem rotr_getLsbD (x : Word) (n : Nat) {j : Nat} (hj : j < 32) :
    (rotr x n).getLsbD j = x.getLsbD ((j + n) % 32) := by
  rw [rotr_eq_rotateRight, BitVec.getLsbD_rotateRight]
  by_cases h : j < 32 - n % 32
  · have hi : (j + n) % 32 = n % 32 + j := by omega
    simp [h, hi]
  · have hi : (j + n) % 32 = j - (32 - n % 32) := by omega
    simp [h, hi, hj]

/-- Settles O7. -/
theorem rotrMovesBits : Obligations.RotrMovesBits :=
  ⟨fun x _ _ hn => rotr_toNat x hn, fun x n _ hj => rotr_getLsbD x n hj⟩

theorem shr_toNat (x : Word) (n : Nat) : (shr x n).toNat = x.toNat / 2 ^ n := by
  rw [shr, BitVec.toNat_ushiftRight, Nat.shiftRight_eq_div_pow]

/-- Zeros enter a shift at the top (40_word_ops.md R73). -/
theorem shr_getLsbD (x : Word) (n j : Nat) : (shr x n).getLsbD j = (decide (j + n < 32) && x.getLsbD (j + n)) := by
  rw [shr, BitVec.getLsbD_ushiftRight, Nat.add_comm n j]
  by_cases h : j + n < 32
  · simp [h]
  · simp [h, BitVec.getLsbD_of_ge x (j + n) (by omega)]

theorem not32_eq_not (x : Word) : not32 x = ~~~x := BitVec.xor_allOnes

/-- Settles O8. -/
theorem shrAndComplementAsIntegers : Obligations.ShrAndComplementAsIntegers :=
  ⟨shr_toNat, fun x => by rw [not32_eq_not, BitVec.toNat_not]⟩

/-! The mixing functions, bit by bit. -/

/-- Settles O9: the bits of an exclusive-or of rotations and shifts. -/
theorem sigmaFunctionsBitByBit : Obligations.SigmaFunctionsBitByBit := by
  intro x j hj
  simp only [ssig0, ssig1, bsig0, bsig1, BitVec.getLsbD_xor, rotr_getLsbD x _ hj, shr_getLsbD, and_self]

theorem ch_getLsbD (e f g : Word) (j : Nat) :
    (ch e f g).getLsbD j = if e.getLsbD j then f.getLsbD j else g.getLsbD j := by
  rw [ch, not32_eq_not, BitVec.getLsbD_xor, BitVec.getLsbD_and, BitVec.getLsbD_and, BitVec.getLsbD_not]
  cases he : e.getLsbD j with
  | true => simp
  | false => simpa using BitVec.lt_of_getLsbD

/-- The exclusive-or of the three pairwise products of bits is their majority (40_word_ops.md R81). -/
theorem xor_and_pairs_eq_majority : ∀ p q r : Bool,
    (((p && q) ^^ (p && r)) ^^ (q && r)) = decide (2 ≤ p.toNat + q.toNat + r.toNat) := by
  decide

theorem maj_getLsbD (a b c : Word) (j : Nat) : (maj a b c).getLsbD j =
    decide (2 ≤ (a.getLsbD j).toNat + (b.getLsbD j).toNat + (c.getLsbD j).toNat) := by
  simp only [maj, BitVec.getLsbD_xor, BitVec.getLsbD_and, xor_and_pairs_eq_majority]

/-- Settles O10. -/
theorem chSelectsAndMajVotes : Obligations.ChSelectsAndMajVotes := ⟨ch_getLsbD, maj_getLsbD⟩

end Sys2Proof.Machine
end

section
/-! The family of 41_init_update.md: INIT and ABSORB (R90, R91), DOC's `update` and the expansion of UPDATE (R92 to
R95), and the state as a function of the message (R96). The last part gives the digest behind UPDATE commands in the
closed forms of 43_finalize.md R128 and R133. -/

namespace Sys2Proof.Machine

/-! INIT and ABSORB. -/

/-- Settles O19: the values INIT loads are those of reset and depend on no earlier state. -/
theorem initStartsAMessage : Obligations.InitStartsAMessage := by
  refine ⟨fun s => exec_init_of_none, fun s t hs h => ?_, fun s t u hf h h' => ?_⟩
  · cases (exec_init_of_none (congrArg Arch.fault hs)).symm.trans h
    obtain ⟨hh, hb, hn, -⟩ := (arch_eq_iff _ _).1 hs
    exact Arch.ext hh.symm hb.symm hn.symm rfl
  · cases (exec_init_of_none hf).symm.trans h
    cases (exec_init_of_none (by exact hf)).symm.trans h'
    rfl

/-- Settles O20: the overflow check decides the fault, and the length of the buffer with the byte decides the
consumption of a block. -/
theorem absorbAppendsOrCompresses : Obligations.AbsorbAppendsOrCompresses := by
  intro s b hf
  refine ⟨fun hc => exec_absorb_of_overflow hf ((countOverflows_iff _).2 hc) b, fun hroom => ?_⟩
  have hexec := exec_absorb_of_room hf (mt (countOverflows_iff _).1 (Nat.not_lt.2 hroom)) b
  refine ⟨s.bitcnt + 8#64, count_add_eight hroom, fun hl => ?_, fun hl => ?_⟩
  · rw [hexec, takeMessageByte_of_ne hl, respond_nil]
  · rw [hexec, takeMessageByte_of_eq hl, respond_nil]

/-! DOC's `update`. Its loop is determined by any cutting of its buffer into whole blocks and a rest. -/

/-- Every byte sequence is whole blocks followed by fewer than 64 bytes. -/
theorem exists_blocks (b : List Byte) :
    ∃ blocks rest, (∀ x ∈ blocks, x.length = 64) ∧ rest.length < 64 ∧ b = List.flatten blocks ++ rest := by
  refine ⟨(List.range (b.length / 64)).map (messageBlock b), b.drop (64 * (b.length / 64)), ?_, ?_, ?_⟩
  · simp only [List.forall_mem_map, List.mem_range]
    exact fun q hq => messageBlock_length (by omega)
  · rw [List.length_drop]
    omega
  · rw [← List.flatMap_def, flatMap_messageBlock, List.take_append_drop]

theorem flatten_blocks_length {blocks : List (List Byte)} (hblocks : ∀ x ∈ blocks, x.length = 64) :
    blocks.flatten.length = 64 * blocks.length := by
  rw [List.length_flatten, List.map_congr_left hblocks, List.map_const', List.sum_replicate, smul_eq_mul, Nat.mul_comm]

/-- The loop takes whole blocks from the front, in order, and leaves the rest. -/
theorem consumeBlocks_flatten_append {blocks : List (List Byte)} {rest : List Byte}
    (hblocks : ∀ x ∈ blocks, x.length = 64) (hrest : rest.length < 64) {n : Nat} (hn : blocks.length ≤ n) (h : Chain) :
    consumeBlocks n h (blocks.flatten ++ rest) = (blocks.foldl compress h, rest) := by
  induction blocks generalizing n h with
  | nil => cases n <;> simp [consumeBlocks, hrest]
  | cons x blocks ih =>
    obtain ⟨hx, hblocks⟩ := List.forall_mem_cons.1 hblocks
    obtain ⟨n, rfl⟩ : ∃ k, n = k + 1 := ⟨n - 1, by simp at hn; omega⟩
    rw [List.flatten_cons, List.append_assoc, consumeBlocks, if_neg (by simp [hx]), List.take_left' hx,
      List.drop_left' hx, ih hblocks (by simpa using hn), List.foldl_cons]

/-- DOC's `update`, given the blocks and the rest of the old buffer with the data (41_init_update.md R92). -/
theorem docUpdate_of_blocks {a : Arch} {data rest : List Byte} {blocks : List (List Byte)}
    (hblocks : ∀ x ∈ blocks, x.length = 64) (hrest : rest.length < 64) (hb : a.buf ++ data = blocks.flatten ++ rest) :
    docUpdate data a =
      ⟨blocks.foldl compress a.h, rest, a.bitcnt + BitVec.ofNat 64 (8 * data.length), a.fault⟩ := by
  have hn : blocks.length ≤ (blocks.flatten ++ rest).length := by
    rw [List.length_append, flatten_blocks_length hblocks]
    omega
  rw [docUpdate, hb, consumeBlocks_flatten_append hblocks hrest hn, BitVec.ofNat_add, BitVec.ofNat_toNat,
    BitVec.setWidth_eq]

/-- Below the counter's bound DOC's `update` counts exactly. -/
theorem docUpdate_bitcnt_toNat {a : Arch} {data : List Byte} (h : a.bitcnt.toNat + 8 * data.length ≤ 2 ^ 64 - 1) :
    (docUpdate data a).bitcnt.toNat = a.bitcnt.toNat + 8 * data.length := by
  rw [docUpdate, BitVec.toNat_ofNat, Nat.mod_eq_of_lt (by omega)]

theorem docUpdate_fault (data : List Byte) (a : Arch) : (docUpdate data a).fault = a.fault := rfl

/-- The postcondition of DOC's `update`. -/
theorem docUpdate_buf_length (data : List Byte) (a : Arch) : (docUpdate data a).buf.length < 64 := by
  obtain ⟨blocks, rest, hblocks, hrest, hb⟩ := exists_blocks (a.buf ++ data)
  rwa [docUpdate_of_blocks hblocks hrest hb]

/-- Settles O23: the blocks are those of `exists_blocks`. -/
theorem docUpdateConsumesWholeBlocks : Obligations.DocUpdateConsumesWholeBlocks := by
  intro a data hroom
  refine ⟨docUpdate_buf_length data a, docUpdate_bitcnt_toNat hroom, docUpdate_fault data a, ?_⟩
  obtain ⟨blocks, rest, hblocks, hrest, hb⟩ := exists_blocks (a.buf ++ data)
  rw [docUpdate_of_blocks hblocks hrest hb]
  exact ⟨blocks, hblocks, hb, rfl⟩

/-- The empty update changes nothing (41_init_update.md R95). -/
theorem docUpdate_nil {a : Arch} (h : a.buf.length < 64) : docUpdate [] a = a := by
  rw [docUpdate_of_blocks (blocks := []) (by simp) h (by simp)]
  simp

/-- An update may be split anywhere (41_init_update.md R94): the blocks of the first part, then those of the second. The
counter wraps alike on both sides. -/
theorem docUpdate_append (x y : List Byte) (a : Arch) : docUpdate (x ++ y) a = docUpdate y (docUpdate x a) := by
  obtain ⟨blocks, rest, hblocks, hrest, hx⟩ := exists_blocks (a.buf ++ x)
  obtain ⟨blocks', rest', hblocks', hrest', hy⟩ := exists_blocks (rest ++ y)
  have hxy : a.buf ++ (x ++ y) = (blocks ++ blocks').flatten ++ rest' := by
    rw [← List.append_assoc, hx, List.append_assoc, hy, List.flatten_append, List.append_assoc]
  rw [docUpdate_of_blocks (List.forall_mem_append.2 ⟨hblocks, hblocks'⟩) hrest' hxy,
    docUpdate_of_blocks hblocks hrest hx, docUpdate_of_blocks hblocks' hrest' (by exact hy), List.foldl_append]
  simp only [List.length_append, Nat.mul_add, BitVec.ofNat_add, BitVec.add_assoc]

/-- DOC's `update` of one byte is what ABSORB writes (41_init_update.md R91). -/
theorem takeMessageByte_arch {s : State} (hs : s.buf.length < 64) (b : Byte) :
    (s.takeMessageByte b).arch = docUpdate [b] s.arch := by
  by_cases hl : (s.buf ++ [b]).length = 64
  · rw [takeMessageByte_of_eq hl,
      docUpdate_of_blocks (blocks := [s.buf ++ [b]]) (rest := []) (by simpa using hl) (by simp) (by simp)]
    rfl
  · have hlt : (s.buf ++ [b]).length < 64 := by
      rw [List.length_append, List.length_singleton] at hl ⊢
      omega
    rw [takeMessageByte_of_ne hl, docUpdate_of_blocks (blocks := []) (by simp) hlt (by simp)]
    rfl

/-! Command sequences and the architectural state they end in. -/

/-- The words, each a whole transaction, run from `s` to a state with the architectural part `a`. -/
def Reaches (ws : List CmdWord) (s : State) (a : Arch) : Prop := ∃ t, runWords ws s = .next t ∧ t.arch = a

theorem reaches_nil {s : State} {a : Arch} (ha : s.arch = a) : Reaches [] s a := ⟨s, rfl, ha⟩

theorem reaches_of_transact {w : CmdWord} {s u : State} {a : Arch} (h : transact w s = .next u) (ha : u.arch = a) :
    Reaches [w] s a :=
  ⟨u, by rw [runWords, h, andThen_next, runWords], ha⟩

/-- A word alone: the taking of its response does not touch the architectural state. -/
theorem reaches_of_issue {w : CmdWord} {s u : State} {a : Arch} (h : issue w s = .next u) (ha : u.arch = a) :
    Reaches [w] s a :=
  reaches_of_transact (transact_of_issue h) ((drain_arch u).trans ha)

/-- A command alone. -/
theorem reaches_of_exec {i : Instr} {s u : State} {a : Arch} (h : exec i s = .next u) (ha : u.arch = a) :
    Reaches [encode i] s a :=
  reaches_of_issue ((issue_of_decode (decode_encode i) s).trans h) ha

theorem Reaches.append {ws vs : List CmdWord} {s : State} {a c : Arch} (hws : Reaches ws s a)
    (hvs : ∀ t : State, t.arch = a → Reaches vs t c) : Reaches (ws ++ vs) s c := by
  obtain ⟨t, ht, hta⟩ := hws
  obtain ⟨u, hu, hua⟩ := hvs t hta
  exact ⟨u, by rw [runWords_append, ht, andThen_next, hu], hua⟩

/-- A faulted engine ignores every sequence of words (60_exceptions.md R145). -/
theorem reaches_of_fault {s : State} {a : Arch} (ha : s.arch = a) (hf : a.fault ≠ .none) (ws : List CmdWord) :
    Reaches ws s a := by
  induction ws generalizing s with
  | nil => exact reaches_nil ha
  | cons w ws ih =>
    have hw : issue w s = .next { s with responses := s.responses ++ [[]] } :=
      unlessFaulted_of_fault (by rwa [← arch_fault, ha]) _
    exact (reaches_of_issue hw ha).append (vs := ws) fun t ht => ih ht

/-! The expansion of UPDATE. -/

theorem updateWords_append (x y : List Byte) : updateWords (x ++ y) = updateWords x ++ updateWords y :=
  List.map_append

/-- ABSORB with room in the counter. -/
theorem reaches_absorb {s : State} {a : Arch} (ha : s.arch = a) (hf : a.fault = .none) (hb : a.buf.length < 64)
    (hroom : a.bitcnt.toNat + 8 ≤ 2 ^ 64 - 1) (b : Byte) : Reaches [encode (.absorb b)] s (docUpdate [b] a) := by
  subst ha
  refine reaches_of_exec (exec_absorb_of_room hf (mt (countOverflows_iff _).1 (Nat.not_lt.2 hroom)) b) ?_
  rw [respond_arch, takeMessageByte_arch hb]

/-- ABSORB without room in the counter. -/
theorem reaches_absorb_of_overflow {s : State} {a : Arch} (ha : s.arch = a) (hf : a.fault = .none)
    (hover : a.bitcnt.toNat + 8 > 2 ^ 64 - 1) (b : Byte) :
    Reaches [encode (.absorb b)] s { a with fault := .lenOverflow } := by
  subst ha
  exact reaches_of_exec (exec_absorb_of_overflow hf ((countOverflows_iff _).2 hover) b) rfl

/-- With room in the counter UPDATE reaches the state of DOC's `update` (41_init_update.md R93), by induction on the
bytes: ABSORB is the update of one byte, and an update may be split. -/
theorem reaches_updateWords {s : State} {a : Arch} (ha : s.arch = a) (hf : a.fault = .none) (hb : a.buf.length < 64)
    (bs : List Byte) (hroom : a.bitcnt.toNat + 8 * bs.length ≤ 2 ^ 64 - 1) :
    Reaches (updateWords bs) s (docUpdate bs a) := by
  induction bs generalizing s a with
  | nil => exact reaches_nil (ha.trans (docUpdate_nil hb).symm)
  | cons b bs ih =>
    rw [List.length_cons] at hroom
    have hcount : (docUpdate [b] a).bitcnt.toNat = a.bitcnt.toNat + 8 :=
      docUpdate_bitcnt_toNat (by rw [List.length_singleton]; omega)
    rw [← List.singleton_append, updateWords_append, docUpdate_append]
    refine (reaches_absorb ha hf hb (by omega) b).append fun t ht => ?_
    exact ih ht (by rwa [docUpdate_fault]) (docUpdate_buf_length _ _) (by omega)

/-- Without room UPDATE absorbs what the counter has room for, faults on the next byte and ignores the others
(41_init_update.md R93). -/
theorem reaches_updateWords_of_overflow {s : State} {a : Arch} (ha : s.arch = a) (hf : a.fault = .none)
    (hb : a.buf.length < 64) (h8 : a.bitcnt.toNat % 8 = 0) (bs : List Byte)
    (hover : a.bitcnt.toNat + 8 * bs.length > 2 ^ 64 - 1) :
    Reaches (updateWords bs) s
      { docUpdate (bs.take ((2 ^ 64 - 8 - a.bitcnt.toNat) / 8)) a with fault := .lenOverflow } := by
  have hlt := a.bitcnt.isLt
  generalize hk : (2 ^ 64 - 8 - a.bitcnt.toNat) / 8 = k
  have hkl : k < bs.length := by omega
  have hlen : (bs.take k).length = k := List.length_take_of_le hkl.le
  have hroom : a.bitcnt.toNat + 8 * (bs.take k).length ≤ 2 ^ 64 - 1 := by omega
  have hcount := docUpdate_bitcnt_toNat hroom
  have hsplit : updateWords bs =
      updateWords (bs.take k) ++ ([encode (.absorb bs[k])] ++ updateWords (bs.drop (k + 1))) := by
    conv_lhs => rw [← List.take_append_drop k bs, List.drop_eq_getElem_cons hkl, updateWords_append]
    rfl
  rw [hsplit]
  refine (reaches_updateWords ha hf hb _ hroom).append fun t ht => ?_
  refine (reaches_absorb_of_overflow ht (by rwa [docUpdate_fault]) (by omega) _).append fun u hu => ?_
  exact reaches_of_fault hu (by simp) _

/-- Settles O22: the two cases of the counter's room. -/
theorem updateEqualsDocUpdate : Obligations.UpdateEqualsDocUpdate :=
  ⟨fun _ bs hf hb hroom => reaches_updateWords rfl hf hb bs hroom,
    fun _ bs hf hb h8 hover => reaches_updateWords_of_overflow rfl hf hb h8 bs hover⟩

/-! The state as a function of the message. -/

theorem absorbedBytes_cons (i : Instr) (is : List Instr) :
    absorbedBytes (i :: is) = absorbedBytes [i] ++ absorbedBytes is := by
  cases i <;> rfl

/-- A command other than INIT in the state of a message: ABSORB adds its byte, DIGEST and DIGESTHEX leave the state as
it is (43_finalize.md R127). -/
theorem reaches_command_of_message {s : State} {m : List Byte} (hs : s.arch = archOfMessage m) {i : Instr}
    (hi : i ≠ .init) (hroom : 8 * (m.length + (absorbedBytes [i]).length) ≤ 2 ^ 64 - 8) :
    Reaches [encode i] s (archOfMessage (m ++ absorbedBytes [i])) := by
  have hf : s.fault = .none := congrArg Arch.fault hs
  cases i with
  | init => exact absurd rfl hi
  | absorb b => exact runWords_updateWords_of_message hs [b] hroom
  | digest =>
    rw [show absorbedBytes [.digest] = [] from rfl, List.append_nil]
    exact reaches_of_exec (exec_digest_of_none hf) hs
  | digesthex =>
    rw [show absorbedBytes [.digesthex] = [] from rfl, List.append_nil]
    exact reaches_of_exec (exec_digesthex_of_none hf) hs

theorem reaches_commands_of_message {s : State} {m : List Byte} (hs : s.arch = archOfMessage m) {is : List Instr}
    (hi : .init ∉ is) (hroom : 8 * (m.length + (absorbedBytes is).length) ≤ 2 ^ 64 - 8) :
    Reaches (is.map encode) s (archOfMessage (m ++ absorbedBytes is)) := by
  induction is generalizing s m with
  | nil =>
    rw [absorbedBytes, List.append_nil]
    exact reaches_nil hs
  | cons i is ih =>
    obtain ⟨hne, hi⟩ := not_or.1 (mt List.mem_cons.2 hi)
    rw [absorbedBytes_cons, List.length_append] at hroom
    rw [absorbedBytes_cons, ← List.append_assoc]
    refine (reaches_command_of_message hs (Ne.symm hne) (by omega)).append fun t hta => ih hta hi ?_
    rw [List.length_append]
    omega

/-- Settles O25: the reset state, and the state after INIT, are the state of the empty message. -/
theorem stateIsAFunctionOfTheMessage : Obligations.StateIsAFunctionOfTheMessage := by
  intro s is hi hlen
  have hrun : ∀ t : State, t.arch = archOfMessage [] →
      Reaches (is.map encode) t (archOfMessage (absorbedBytes is)) := fun t ht =>
    reaches_commands_of_message ht hi (by simpa using hlen)
  refine ⟨fun hs => hrun s (hs.trans archOfMessage_nil.symm), fun hf => ?_⟩
  obtain ⟨u, hu, hua⟩ := transact_init_of_none hf
  exact (reaches_of_transact hu hua).append hrun

/-! The digest as a function of the message. -/

/-- The padding controller compresses the blocks of the closed form (43_finalize.md R128). -/
theorem finalChain_eq_foldl {s : State} (hb : s.buf.length ≤ 63) :
    finalChain s = (paddingBlocks s.buf s.bitcnt).foldl compress s.h := by
  have hfit : lengthDoesNotFit (s.buf ++ [0x80#8]) = true ↔ ¬ s.buf.length ≤ 55 := by
    simp [lengthDoesNotFit]
    omega
  simp only [finalChain, State.snapshot, WorkCopy.mark, memWrite_byte, WorkCopy.overflowBlock, hfit,
    WorkCopy.fillToLimit, WorkCopy.appendLength, WorkCopy.lastBlock, paddingBlocks]
  by_cases hl : s.buf.length ≤ 55
  · simp [hl, memWrite, zeros]
  · simp [hl, memWrite, zeros]

theorem paddingBlocks_lengths {b : List Byte} (hb : b.length ≤ 63) (l : Count) :
    ∀ x ∈ paddingBlocks b l, x.length = 64 := by
  unfold paddingBlocks
  split <;> simp <;> omega

/-- Whole blocks appended to whole blocks go on with the chain. -/
theorem chainAfter_append_flatten {blocks : List (List Byte)} (hblocks : ∀ x ∈ blocks, x.length = 64) {m : List Byte}
    {q : Nat} (hm : m.length = 64 * q) :
    chainAfter (m ++ blocks.flatten) (q + blocks.length) = blocks.foldl compress (chainAfter m q) := by
  induction blocks generalizing m q with
  | nil => simp
  | cons x blocks ih =>
    obtain ⟨hx, hblocks⟩ := List.forall_mem_cons.1 hblocks
    have hblock : messageBlock (m ++ x) q = x := by
      rw [messageBlock, ← hm, List.drop_left, List.take_of_length_le hx.le]
    have hlen : (m ++ x).length = 64 * (q + 1) := by rw [List.length_append]; omega
    rw [List.flatten_cons, ← List.append_assoc, List.length_cons, Nat.add_comm blocks.length, ← Nat.add_assoc,
      ih hblocks hlen, chainAfter, hblock, chainAfter_append hm.ge, List.foldl_cons]

theorem archOfMessage_bitcnt_toNat {m : List Byte} (hm : 8 * m.length ≤ 2 ^ 64 - 8) :
    (archOfMessage m).bitcnt.toNat = 8 * m.length := by
  rw [archOfMessage, BitVec.toNat_ofNat, Nat.mod_eq_of_lt (by omega)]

/-- The padded message of 43_finalize.md R133 is the whole blocks of the message followed by the blocks of R128. -/
theorem paddedMessage_eq {m : List Byte} (hm : 8 * m.length ≤ 2 ^ 64 - 8) :
    paddedMessage m = m.take (64 * (m.length / 64)) ++
      (paddingBlocks (archOfMessage m).buf (archOfMessage m).bitcnt).flatten := by
  have hsplit : m.take (64 * (m.length / 64)) ++ (archOfMessage m).buf = m := List.take_append_drop _ _
  rw [paddedMessage, paddingBlocks, archOfMessage_buf_length, archOfMessage_bitcnt_toNat hm]
  split
  · have hz : padZeros m.length = 55 - m.length % 64 := by unfold padZeros; omega
    simp only [hz, List.flatten_cons, List.flatten_nil, List.append_nil, ← List.append_assoc, hsplit]
  · have hz : padZeros m.length = 63 - m.length % 64 + 56 := by unfold padZeros; omega
    simp only [hz, List.replicate_add, List.flatten_cons, List.flatten_nil, List.append_nil, ← List.append_assoc, hsplit]

/-- The digest bytes in the state of a message (43_finalize.md R133): the chain over the padded message passes through
`H`, then takes the padding blocks. -/
theorem digestBytes_of_message {s : State} {m : List Byte} (hs : s.arch = archOfMessage m)
    (hm : 8 * m.length ≤ 2 ^ 64 - 8) : digestBytes s = digestOfMessage m := by
  have hfill : s.buf.length ≤ 63 := by
    rw [← arch_buf, hs, archOfMessage_buf_length]
    omega
  have hblocks := paddingBlocks_lengths hfill s.bitcnt
  have htake : (m.take (64 * (m.length / 64))).length = 64 * (m.length / 64) :=
    List.length_take_of_le (Nat.mul_div_le _ _)
  have hchain : s.h = chainAfter (m.take (64 * (m.length / 64))) (m.length / 64) := by
    rw [← chainAfter_append htake.ge (m.drop _), List.take_append_drop]
    exact congrArg Arch.h hs
  have hpadded := paddedMessage_eq hm
  rw [← hs, arch_buf, arch_bitcnt] at hpadded
  have hcount : (paddedMessage m).length / 64 = m.length / 64 + (paddingBlocks s.buf s.bitcnt).length := by
    rw [hpadded, List.length_append, htake, flatten_blocks_length hblocks]
    omega
  rw [digestBytes, finalChain_eq_foldl hfill, digestOfMessage, hcount, hpadded,
    chainAfter_append_flatten hblocks htake, hchain]

/-- Settles O24: the state after both UPDATE commands is that of the message `m ++ x ++ y`. -/
theorem updateSplitsAnywhere : Obligations.UpdateSplitsAnywhere := by
  refine ⟨fun x y => (updateWords_append x y).symm, fun a x y _ => (docUpdate_append x y a).symm, fun a => docUpdate_nil,
    fun s m x y hs hroom => ?_⟩
  obtain ⟨t, ht, hta⟩ := runWords_updateWords_of_message hs (x ++ y) (by rw [List.length_append]; omega)
  rw [updateWords_append, runWords_append] at ht
  rw [← List.append_assoc] at hta
  have hdigest := digestBytes_of_message hta (by simp only [List.length_append]; omega)
  exact ⟨t, ht, hdigest ▸ exec_digest_of_none (congrArg Arch.fault hta)⟩

end Sys2Proof.Machine
end

section
/-! The family of 42_compression.md: the schedule as the block's words and then the recurrence (R101, R102), kept whole
or as a window of 16 words (R103), one round (R105), and `Compress` as the sequence of its rounds (R104, R106, R107).
That no state and no command word stops the machine (R109) comes last. -/

namespace Sys2Proof.Machine

/-! The schedule. -/

/-- Words already computed are kept when others are put behind them. -/
theorem scheduleWord_of_prefix {w v : List Word} (h : w <+: v) {j : Nat} (hj : j < w.length) :
    scheduleWord v j = scheduleWord w j := by
  obtain ⟨more, rfl⟩ := h
  exact List.getD_append _ _ _ _ hj

/-- The recurrence for `W[i]` reads earlier words only (42_compression.md R102). -/
theorem recurrence_of_prefix {w v : List Word} (h : w <+: v) {i : Nat} (h16 : 16 ≤ i) (hi : i ≤ w.length) :
    recurrence v i = recurrence w i := by
  have hread : ∀ d, 0 < d → d ≤ 16 → scheduleWord v (i - d) = scheduleWord w (i - d) :=
    fun d _ _ => scheduleWord_of_prefix h (by omega)
  simp [recurrence, hread]

/-- Words from `W[i]` on, computed in increasing order, follow the recurrence in the schedule `v` that results. -/
theorem foldl_recurrence_word {n i : Nat} {w v : List Word}
    (hv : (List.range' i n).foldl (fun w i => w ++ [recurrence w i]) w = v) (h16 : 16 ≤ i) (hw : w.length = i) {j : Nat}
    (hij : i ≤ j) (hj : j < i + n) : scheduleWord v j = recurrence v j := by
  induction n generalizing i w with
  | zero => omega
  | succ n ih =>
    rw [List.range'_succ, List.foldl_cons] at hv
    obtain rfl | hlt := hij.eq_or_lt
    · have hp : w ++ [recurrence w i] <+: v := hv ▸ foldl_recurrence_prefix _ _
      rw [scheduleWord_of_prefix hp (by simp [hw]), recurrence_of_prefix ((List.prefix_append _ _).trans hp) h16 hw.ge]
      simp [scheduleWord, ← hw]
    · exact ih hv (by omega) (by simp [hw]) hlt (by omega)

theorem foldl_recurrence_length (is : List Nat) (w : List Word) :
    (is.foldl (fun w i => w ++ [recurrence w i]) w).length = w.length + is.length := by
  induction is generalizing w with
  | nil => rfl
  | cons i is ih => simp [ih, Nat.add_assoc, Nat.add_comm]

@[simp] theorem schedule_length (blk : List Byte) : (schedule blk).length = 64 := by
  simp [schedule, foldl_recurrence_length]

theorem blockWords_prefix_schedule (blk : List Byte) : blockWords blk <+: schedule blk := foldl_recurrence_prefix _ _

theorem schedule_word_eq_recurrence (blk : List Byte) {i : Nat} (h16 : 16 ≤ i) (hi : i < 64) :
    scheduleWord (schedule blk) i = recurrence (schedule blk) i :=
  foldl_recurrence_word rfl (by decide) (blockWords_length blk) h16 hi

/-- Settles O15. -/
theorem scheduleIsBlockThenRecurrence : Obligations.ScheduleIsBlockThenRecurrence := fun blk _ =>
  ⟨schedule_length blk, fun t ht => by rw [schedule_getD_of_lt blk ht]; exact memRead4_toNat blk (4 * t),
    fun _ => schedule_word_eq_recurrence blk⟩

/-! The rounds. -/

theorem runRounds_succ (n : Nat) (w : List Word) (v : Vars) :
    runRounds (n + 1) w v = roundStep (runRounds n w v) (kConst n) (scheduleWord w n) := by
  simp [runRounds, List.range_succ]

/-- Settles O18: the working variables after each number of rounds are the sequence. -/
theorem compressIsRoundsAndFeedForward : Obligations.CompressIsRoundsAndFeedForward := fun hin blk =>
  ⟨fun n => runRounds n (schedule blk) (loadVars hin), rfl, fun i _ => runRounds_succ i _ _, add32_pair_toNat _ _,
    add32_pair_toNat _ _, add32_pair_toNat _ _, add32_pair_toNat _ _, add32_pair_toNat _ _, add32_pair_toNat _ _,
    add32_pair_toNat _ _, add32_pair_toNat _ _⟩

/-- The rounds before round `n` use only the first `n` words (42_compression.md R106). -/
theorem runRounds_of_prefix {w u : List Word} (h : w <+: u) {n : Nat} (hn : n ≤ w.length) (v : Vars) :
    runRounds n u v = runRounds n w v := by
  induction n with
  | zero => rfl
  | succ n ih => rw [runRounds_succ, runRounds_succ, ih (by omega), scheduleWord_of_prefix h hn]

/-! The schedule as a window (42_compression.md R103). -/

/-- The 16 words of a schedule from `W[k]` on: what the window holds in round `k + 16`. -/
def windowAt (w : List Word) (k : Nat) : List Word := (w.drop k).take 16

theorem windowAt_word (w : List Word) (k : Nat) {j : Nat} (hj : j < 16) :
    scheduleWord (windowAt w k) j = scheduleWord w (k + j) := by
  simp [scheduleWord, windowAt, List.getD_eq_getElem?_getD, hj]

theorem windowNext_windowAt (w : List Word) (k : Nat) : windowNext (windowAt w k) = recurrence w (16 + k) := by
  have hread : ∀ j < 16, scheduleWord (windowAt w k) j = scheduleWord w (16 + k - (16 - j)) := by
    intro j hj
    rw [windowAt_word w k hj]
    congr 1
    omega
  simp [windowNext, recurrence, hread]

/-- Shifting the word that the recurrence gives into the window moves it on by one word of the schedule. -/
theorem windowShift_windowAt {w : List Word} {k : Nat} (hk : 16 + k < w.length)
    (hw : scheduleWord w (16 + k) = recurrence w (16 + k)) : windowShift (windowAt w k) = windowAt w (k + 1) := by
  have hnew : [recurrence w (16 + k)] = ((w.drop (k + 1)).drop 15).take 1 := by
    rw [← hw, scheduleWord, List.getD_eq_getElem _ _ hk, List.drop_drop, show k + 1 + 15 = 16 + k by omega,
      List.take_one_drop_eq_of_lt_length hk]
    rfl
  rw [windowShift, windowNext_windowAt, hnew, windowAt, List.drop_take, List.drop_drop, windowAt, ← List.take_add]

/-- Behind the rounds before it, the windowed rounds from round `16 + k` on are the rest of the rounds. -/
theorem windowRounds_windowAt {w : List Word} (hw : ∀ i, 16 ≤ i → i < w.length → scheduleWord w i = recurrence w i)
    {n k : Nat} (hn : 16 + k + n = w.length) (v : Vars) :
    windowRounds n (16 + k) (windowAt w k) (runRounds (16 + k) w v) = runRounds w.length w v := by
  induction n generalizing k with
  | zero => rw [← hn]; rfl
  | succ n ih =>
    have hnext := hw (16 + k) (by omega) (by omega)
    rw [windowRounds, windowNext_windowAt, ← hnext, windowShift_windowAt (by omega) hnext, ← runRounds_succ]
    exact ih (k := k + 1) (by omega)

theorem windowAt_schedule_zero (blk : List Byte) : windowAt (schedule blk) 0 = blockWords blk := by
  rw [windowAt, List.drop_zero]
  exact (List.prefix_iff_eq_take.1 (blockWords_prefix_schedule blk)).symm

/-- Settles O16: round 16 finds the block's words in the window, and from there the window follows the schedule. -/
theorem windowedScheduleGivesTheSameResult : Obligations.WindowedScheduleGivesTheSameResult := by
  intro hin blk
  have hrounds := windowRounds_windowAt (w := schedule blk) (n := 48) (k := 0)
    (fun i h16 hi => schedule_word_eq_recurrence blk h16 (by simpa using hi)) (by simp) (loadVars hin)
  rw [schedule_length, windowAt_schedule_zero, runRounds_of_prefix (blockWords_prefix_schedule blk) (by simp)] at hrounds
  exact congrArg (feedForward hin) hrounds

/-! One round (42_compression.md R105). -/

/-- Settles O17: each assignment of DOC's order reads variables that the ones before it have left alone. In the opposite
order `b` takes the new `a`, which the round from all zeros with a constant of 1 shows. -/
theorem roundTransfersTheRegisters : Obligations.RoundTransfersTheRegisters := by
  refine ⟨fun v ki wi => ⟨roundT1 v ki wi, roundT2 v, ?_, add32_pair_toNat _ _, rfl, rfl, rfl, add32_pair_toNat _ _, rfl,
    rfl, rfl, add32_pair_toNat _ _⟩, fun _ _ _ => rfl,
    ⟨0#32, 0#32, 0#32, 0#32, 0#32, 0#32, 0#32, 0#32⟩, 1#32, 0#32, by decide⟩
  simp [roundT1, add32_toNat, Nat.add_assoc]

/-! Completion. -/

/-- Settles O47. -/
theorem everyStepAnswersANextState : Obligations.EveryStepAnswersANextState := by
  refine ⟨fun s => ?_, fun w s => ?_⟩
  · obtain ⟨t, ht, -⟩ := step_cases s
    exact ⟨t, ht⟩
  · obtain ⟨t, ht, -⟩ := issue_cases w s
    exact ⟨t, ht⟩

end Sys2Proof.Machine
end

section
/-! The family of 43_finalize.md: the blocks DIGEST compresses (R128), the hexadecimal rendering (R129, R130), what
DIGEST and DIGESTHEX leave unchanged (R127), the digest as a function of the message (R133), and HASH and HASHHEX
(R131). -/

namespace Sys2Proof.Machine

/-! The padding in closed form. -/

theorem paddingBlocks_count (b : List Byte) (l : Count) :
    (paddingBlocks b l).length = if b.length ≤ 55 then 1 else 2 := by
  unfold paddingBlocks
  split <;> rfl

/-- Settles O27: the response is the padding controller's closed form, and the last clause is arithmetic on the number
of blocks. -/
theorem digestCompressesThePaddingBlocks : Obligations.DigestCompressesThePaddingBlocks := by
  refine ⟨fun s hf hb => ?_, fun b l hb => ⟨paddingBlocks_lengths hb l, paddingBlocks_count b l⟩,
    fun b l n hb hn => ?_⟩
  · rw [exec_digest_of_none hf, digestBytes, finalChain_eq_foldl hb]
  · rw [paddingBlocks_count]
    split <;> exact ⟨by omega, fun m _ _ => by omega⟩

/-! The hexadecimal rendering. -/

/-- The two characters of byte `m` stand at `2m` and `2m + 1` (43_finalize.md R129). -/
theorem hexBytes_getD (bs : List Byte) {m : Nat} (hm : m < bs.length) :
    (hexBytes bs).getD (2 * m) 0#8 = hexDigit ((bs.getD m 0#8).extractLsb' 4 4) ∧
    (hexBytes bs).getD (2 * m + 1) 0#8 = hexDigit ((bs.getD m 0#8).extractLsb' 0 4) := by
  induction bs generalizing m with
  | nil => simp at hm
  | cons b bs ih =>
    cases m with
    | zero => exact ⟨rfl, rfl⟩
    | succ m => exact ih (by simpa using hm)

/-- The character code of a digit (43_finalize.md R130). -/
theorem hexDigit_toNat (v : BitVec 4) :
    (hexDigit v).toNat = if v.toNat ≤ 9 then 0x30 + v.toNat else 0x61 + (v.toNat - 10) := by
  revert v; decide

theorem highDigit_toNat (b : Byte) : (b.extractLsb' 4 4).toNat = b.toNat / 16 := by
  rw [BitVec.extractLsb'_toNat, Nat.shiftRight_eq_div_pow]
  omega

theorem lowDigit_toNat (b : Byte) : (b.extractLsb' 0 4).toNat = b.toNat % 16 := by
  rw [BitVec.extractLsb'_toNat, Nat.shiftRight_zero]

/-- Settles O28: the characters of each digest byte are those of its two halves. -/
theorem digesthexRendersTheDigest : Obligations.DigesthexRendersTheDigest := by
  intro s hf
  refine ⟨_, _, exec_digest_of_none hf, exec_digesthex_of_none hf, digestBytes_length s, digestHexBytes_length s,
    fun m hm => ?_⟩
  obtain ⟨hhigh, hlow⟩ := hexBytes_getD (digestBytes s) (m := m) (by rwa [digestBytes_length])
  rw [digestHexBytes, hhigh, hlow, hexDigit_toNat, hexDigit_toNat, highDigit_toNat, lowDigit_toNat]
  exact ⟨rfl, rfl⟩

/-! DIGEST and DIGESTHEX as whole transactions. -/

theorem digestBytes_of_arch_eq {s t : State} (h : s.arch = t.arch) : digestBytes s = digestBytes t := by
  obtain ⟨hh, hb, hn, -⟩ := (arch_eq_iff s t).1 h
  exact digestBytes_congr hh hb hn

/-- DIGEST and DIGESTHEX write no register (43_finalize.md R127). -/
theorem exec_digest_keeps_arch {s t : State} (h : exec .digest s = .next t ∨ exec .digesthex s = .next t) :
    t.arch = s.arch := by
  obtain ⟨-, r, rfl⟩ | ⟨-, rfl⟩ := digest_or_digesthex_of_next h <;> rfl

/-- A command that responds with some bytes, and the host that takes them whole (70_reset_and_hazards.md R165). -/
theorem transact_of_exec_response {i : Instr} {s : State} {r : List Byte}
    (h : exec i s = .next { s with rspLeft := r, rspTaken := [] }) (hr : r ≠ []) :
    transact (encode i) s = .next { s with rspLeft := [], rspTaken := [], responses := s.responses ++ [r] } := by
  rw [transact_of_issue ((issue_of_decode (decode_encode i) s).trans h), drain_of_pending s r hr]

/-! Command sequences that answer a next state, taken apart. -/

theorem andThen_eq_next_iff {o : Host.Outcome State Fault Refusal} {f : State → Host.Outcome State Fault Refusal}
    {t : State} : andThen o f = .next t ↔ ∃ u, o = .next u ∧ f u = .next t := by
  cases o <;> simp [andThen]

/-- A transaction is its word, answered, and the taking of the response. -/
theorem transact_eq_next_iff {w : CmdWord} {s t : State} :
    transact w s = .next t ↔ ∃ u, issue w s = .next u ∧ u.drain = t := by
  simp only [transact, andThen_eq_next_iff, Host.Outcome.next.injEq]

/-- No response is pending once the host has taken it whole. -/
@[simp] theorem drain_rspLeft (s : State) : s.drain.rspLeft = [] := by
  by_cases hl : s.rspLeft = []
  · rw [drain_of_nil hl, hl]
  · rw [drain_of_ne hl]

theorem transact_rspLeft {w : CmdWord} {s t : State} (h : transact w s = .next t) : t.rspLeft = [] := by
  obtain ⟨u, -, rfl⟩ := transact_eq_next_iff.1 h
  exact drain_rspLeft u

theorem runWords_rspLeft {ws : List CmdWord} {s t : State} (hl : s.rspLeft = []) (h : runWords ws s = .next t) :
    t.rspLeft = [] := by
  induction ws generalizing s with
  | nil => cases h; exact hl
  | cons w ws ih =>
    obtain ⟨u, hu, ht⟩ := andThen_eq_next_iff.1 h
    exact ih (transact_rspLeft hu) ht

/-- A transaction of DIGEST or DIGESTHEX writes no register (43_finalize.md R127). -/
theorem transact_digest_keeps_arch {i : Instr} (hi : i = .digest ∨ i = .digesthex) {s t : State}
    (h : transact (encode i) s = .next t) : t.arch = s.arch := by
  obtain ⟨u, hu, rfl⟩ := transact_eq_next_iff.1 h
  rw [issue_of_decode (decode_encode i)] at hu
  rw [drain_arch]
  obtain rfl | rfl := hi
  · exact exec_digest_keeps_arch (.inl hu)
  · exact exec_digest_keeps_arch (.inr hu)

/-- Where a command sequence ends depends on the architectural state alone (20_memory.md R42), word by word. -/
theorem runWords_arch_congr {ws : List CmdWord} {s s' t t' : State} (ha : s.arch = s'.arch) (hl : s.rspLeft = [])
    (hl' : s'.rspLeft = []) (h : runWords ws s = .next t) (h' : runWords ws s' = .next t') : t.arch = t'.arch := by
  induction ws generalizing s s' with
  | nil => cases h; cases h'; exact ha
  | cons w ws ih =>
    obtain ⟨u, hu, ht⟩ := andThen_eq_next_iff.1 h
    obtain ⟨u', hu', ht'⟩ := andThen_eq_next_iff.1 h'
    obtain ⟨hua, -⟩ := engineSeesOnlyItsArchitecturalState w s s' u u' ha hl hl' hu hu'
    exact ih hua (transact_rspLeft hu) (transact_rspLeft hu') ht ht'

/-- Settles O29: the digest in the middle leaves the architectural state, on which alone the second UPDATE depends. -/
theorem digestLeavesTheLiveState : Obligations.DigestLeavesTheLiveState := by
  refine ⟨fun s t h => exec_digest_keeps_arch (.inl h), fun s t h => exec_digest_keeps_arch (.inr h),
    fun s t hf h => ?_, fun s t u x y i hl hi ht hu => ?_⟩
  · have ha : t.arch = s.arch := transact_digest_keeps_arch (.inl rfl) h
    have hft : t.fault = .none := (congrArg Arch.fault ha).trans hf
    have hd : digestBytes t = digestBytes s := digestBytes_of_arch_eq ha
    refine ⟨ha, digestBytes s, exec_digest_of_none hf, ?_, ?_, ?_⟩
    · cases (transact_of_exec_response (exec_digest_of_none hf) (digestBytes_ne_nil s)).symm.trans h
      rfl
    · rw [exec_digest_of_none hft, hd]
    · rw [exec_digesthex_of_none hft, digestHexBytes, hd]
  · rw [runWords_append, andThen_eq_next_iff] at ht
    obtain ⟨p, hp, ht⟩ := ht
    obtain ⟨q, hq, ht⟩ := andThen_eq_next_iff.1 ht
    rw [updateWords_append, runWords_append, hp, andThen_next] at hu
    exact runWords_arch_congr (transact_digest_keeps_arch hi hq) (transact_rspLeft hq) (runWords_rspLeft hl hp) ht hu

/-! The digest as a function of the message. -/

/-- The zero bytes make the padded length a multiple of 64 (43_finalize.md R133). -/
theorem padZeros_pads (n : Nat) : (n + 1 + padZeros n + 8) % 64 = 0 := by
  unfold padZeros
  omega

/-- No smaller number of zero bytes does (43_finalize.md R133). -/
theorem padZeros_le {n z : Nat} (hz : (n + 1 + z + 8) % 64 = 0) : padZeros n ≤ z := by
  unfold padZeros
  omega

/-- Settles O30: the bytes are `digestBytes_of_message`. -/
theorem digestIsAFunctionOfTheMessage : Obligations.DigestIsAFunctionOfTheMessage :=
  ⟨fun _ _ hs hm => digestBytes_of_message hs hm ▸ exec_digest_of_none (congrArg Arch.fault hs),
    fun n => ⟨padZeros_pads n, fun _ => padZeros_le⟩⟩

/-! HASH and HASHHEX. -/

/-- Words other than those of DIGEST and DIGESTHEX add one empty response each (30_encoding.md R56). -/
theorem runWords_responses_of_silent {ws : List CmdWord}
    (hws : ∀ w ∈ ws, decode w ≠ some .digest ∧ decode w ≠ some .digesthex) {s t : State} (hl : s.rspLeft = [])
    (h : runWords ws s = .next t) : t.responses = s.responses ++ List.replicate ws.length [] := by
  induction ws generalizing s with
  | nil => cases h; simp
  | cons w ws ih =>
    obtain ⟨hw, hws⟩ := List.forall_mem_cons.1 hws
    obtain ⟨v, hv, ht⟩ := andThen_eq_next_iff.1 h
    obtain ⟨u, hu, -, -, hsilent⟩ := responsesHaveFixedLength w s hl
    obtain ⟨hul, hur⟩ := hsilent (.inr hw)
    cases (transact_of_issue hu).symm.trans hv
    rw [ih hws (drain_rspLeft u) ht, drain_of_nil hul, hur, List.append_assoc, List.length_cons, List.replicate_succ,
      List.singleton_append]

/-- INIT and UPDATE from an unfaulted state: the state of the message, and empty responses. -/
theorem runWords_init_update_of_none {s : State} (hf : s.fault = .none) (hl : s.rspLeft = []) {m : List Byte}
    (hm : 8 * m.length ≤ 2 ^ 64 - 8) :
    ∃ t, runWords (encode .init :: updateWords m) s = .next t ∧ t.arch = archOfMessage m ∧
      t.responses = s.responses ++ List.replicate (m.length + 1) [] := by
  obtain ⟨u, hu, hua⟩ := transact_init_of_none hf
  obtain ⟨t, ht, hta⟩ := runWords_updateWords_of_message hua m (by simpa using hm)
  have hrun : runWords (encode .init :: updateWords m) s = .next t := by rw [runWords, hu, andThen_next, ht]
  have hsilent : ∀ w ∈ encode .init :: updateWords m, decode w ≠ some .digest ∧ decode w ≠ some .digesthex := by
    simp [updateWords]
  exact ⟨t, hrun, hta, by rw [runWords_responses_of_silent hsilent hl hrun]; simp [updateWords]⟩

/-- One more command word behind a sequence. -/
theorem runWords_append_singleton {ws : List CmdWord} {w : CmdWord} {s t u : State} (ht : runWords ws s = .next t)
    (hu : transact w t = .next u) : runWords (ws ++ [w]) s = .next u := by
  rw [runWords_append, ht, andThen_next, runWords, hu, andThen_next, runWords]

/-- Settles O31: after INIT and UPDATE the engine is in the state of the message, where DIGEST and DIGESTHEX respond
with its digest. -/
theorem hashIsInitUpdateDigest : Obligations.HashIsInitUpdateDigest := by
  intro s m hf hl hm
  obtain ⟨t, ht, hta, htr⟩ := runWords_init_update_of_none hf hl hm
  have hft : t.fault = .none := congrArg Arch.fault hta
  have hd : digestBytes t = digestOfMessage m := digestBytes_of_message hta hm
  have hdigest := transact_of_exec_response (exec_digest_of_none hft) (digestBytes_ne_nil t)
  have hhex := transact_of_exec_response (exec_digesthex_of_none hft) (digestHexBytes_ne_nil t)
  rw [htr] at hdigest hhex
  rw [hd] at hdigest
  rw [digestHexBytes, hd] at hhex
  exact ⟨⟨_, runWords_append_singleton ht hdigest, hta, rfl⟩, ⟨_, runWords_append_singleton ht hhex, hta, rfl⟩⟩

end Sys2Proof.Machine
end

section
/-! The family of 60_exceptions.md: fault entry (R142 to R144), the faulted engine (R145) and its only way out (R146),
the order of checks (R147), and legal sequences, which raise no fault (R140). -/

namespace Sys2Proof.Machine

/-! Fault entry. -/

/-- What a word issued to an unfaulted engine leaves in FAULT, one case for each content of the register. All words that
raise no fault are one case. -/
inductive FaultCase (w : CmdWord) (s t : State) : Prop where
  /-- No fault is raised. -/
  | clean (hc : t.fault = .none)
  /-- The word is no command (60_exceptions.md R142). -/
  | illegalCmd (hd : decode w = none) (ht : t = { s with fault := .illegalCmd, responses := s.responses ++ [[]] })
  /-- ABSORB without room in the counter (60_exceptions.md R143). -/
  | lenOverflow (b : Byte) (hd : decode w = some (.absorb b)) (hc : s.bitcnt.toNat + 8 > 2 ^ 64 - 1)
      (ht : t = { s with fault := .lenOverflow, responses := s.responses ++ [[]] })

/-- The fault of a word, by the case the word is in. -/
theorem IssueCase.faultCase {w : CmdWord} {s t : State} (h : IssueCase w s t) (hf : s.fault = .none) :
    FaultCase w s t := by
  cases h with
  | ignored hne ht => exact absurd hf hne
  | illegal _ hd ht => exact .illegalCmd hd ht
  | init _ hd ht => subst ht; exact .clean hf
  | overflow b _ hd hc ht => exact .lenOverflow b hd hc ht
  | append b _ hd hc hl ht => subst ht; exact .clean hf
  | block b _ hd hc hl ht => subst ht; exact .clean hf
  | digest _ hd ht => subst ht; exact .clean hf
  | digesthex _ hd ht => subst ht; exact .clean hf

/-- Under the invariant of 10_state.md R14 the counter is a multiple of 8, so one value is too large. -/
theorem count_overflows_iff_last {s : State} (hs : s.arch.Inv) :
    s.bitcnt.toNat + 8 > 2 ^ 64 - 1 ↔ s.bitcnt.toNat = 2 ^ 64 - 8 := by
  obtain ⟨h8, -, hmax, -⟩ := (arch_inv_iff s).1 hs
  omega

/-- Settles O21: of the cases of `FaultCase`, only ABSORB without room leaves LEN_OVERFLOW. -/
theorem lenOverflowOnlyAtTheLastCount : Obligations.LenOverflowOnlyAtTheLastCount := by
  refine ⟨rfl, fun s b hf hc => exec_absorb_of_overflow hf ((countOverflows_iff _).2 hc) b,
    fun s => count_overflows_iff_last, fun w s t hf h hlen => ?_⟩
  cases (issueCase_of_next h).faultCase hf with
  | clean hc => simp [hc] at hlen
  | illegalCmd hd ht => simp [ht] at hlen
  | lenOverflow b hd hc ht => exact ⟨⟨b, hd⟩, hc⟩

/-- Settles O34: both cases of `FaultCase` that raise a fault write FAULT alone. -/
theorem faultEntryRecordsOnlyTheCode : Obligations.FaultEntryRecordsOnlyTheCode := by
  intro w s t hf h hne
  cases (issueCase_of_next h).faultCase hf with
  | clean hc => exact absurd hc hne
  | illegalCmd hd ht => subst ht; exact ⟨rfl, by simp [hd]⟩
  | lenOverflow b hd hc ht => subst ht; exact ⟨rfl, by simp [hd]⟩

/-! The faulted engine. -/

/-- A faulted engine ignores every command word (60_exceptions.md R145). -/
theorem issue_of_fault {s : State} (hf : s.fault ≠ .none) (w : CmdWord) :
    issue w s = .next { s with responses := s.responses ++ [[]] } := unlessFaulted_of_fault hf _

/-- Settles O35. -/
theorem faultedEngineIgnoresEveryWord : Obligations.FaultedEngineIgnoresEveryWord :=
  ⟨fun w _ hf => issue_of_fault hf w, fun i _ hf => exec_of_fault hf i⟩

/-- A step whose sample has `rst` high resets (70_reset_and_hazards.md R160). -/
theorem step_of_reset {s : State} {p : HostInput} {rest : List HostInput} (hi : s.inputs = p :: rest)
    (hr : p.rst = true) : step s = .next (State.hardReset { s with inputs := rest }) := by
  have hd : s.dropInput = { s with inputs := rest } := by simp [State.dropInput, hi]
  have ha : s.portAction = .reset := by rw [portAction_cons hi, if_pos hr]
  rw [step, clockPorts, ha, ← hd]

/-- Settles O36: without reset a step of a faulted engine is idle, takes a response byte, or ignores a word. -/
theorem onlyResetClearsTheFault : Obligations.OnlyResetClearsTheFault := by
  refine fun s t hf h => ⟨fun ⟨p, rest, hi, hr⟩ => ?_, fun hn => ?_⟩
  · cases (step_of_reset hi hr).symm.trans h
    exact hardReset_fault _
  · cases stepCase_of_next h with
    | done hi ht => rw [ht]
    | reset p rest hi hr ht => exact absurd ⟨p, rest, hi, hr⟩ hn
    | unchanged p rest hi hr hw ht => subst ht; rfl
    | take p rest hi hr hl ht => subst ht; exact takeRspByte_arch _
    | command p rest w hi hr hp hl hc =>
      rw [step_of_command hi hr hp hl, issue_of_fault (by exact hf)] at h
      cases h
      rfl

/-! The order of checks. -/

theorem legal_eq_false_iff (w : CmdWord) : CmdWord.legal w = false ↔ decode w = none := by
  rw [← Bool.not_eq_true, ← decode_isSome_iff_legal, Option.not_isSome_iff_eq_none]

/-- A legal word is the word of a command. -/
theorem exists_encode_of_legal {w : CmdWord} (hw : CmdWord.legal w = true) : ∃ i, encode i = w :=
  decode_isSome_iff.1 ((decode_isSome_iff_legal w).2 hw)

/-- Every word with ABSORB's op is an ABSORB (30_encoding.md R51). -/
theorem decode_of_absorb_op {w : CmdWord} (hw : w.toNat / 256 = 2) : decode w = some (.absorb (dataField w)) := by
  have hop : opField w = 0x02#8 := BitVec.eq_of_toNat_eq ((opField_toNat w).trans hw)
  rw [decode_eq_some_iff, encode, ← hop, packWord_fields]

/-- Settles O37, one rule for each branch: `step_of_reset`, and `step_of_command` with what `issue` does. -/
theorem checksAreMadeInOrder : Obligations.ChecksAreMadeInOrder := by
  intro s p rest w hi hp hl
  by_cases hr : p.rst = true
  · rw [if_pos hr, step_of_reset hi hr]
  rw [if_neg hr, step_of_command hi (Bool.not_eq_true _ ▸ hr) hp hl]
  split_ifs with hf hlegal hover
  · exact issue_of_fault (by exact hf) w
  · exact issue_of_illegal (by exact not_not.1 hf) ((legal_eq_false_iff w).1 hlegal)
  · obtain ⟨hop, hc⟩ := hover
    rw [issue_of_decode (decode_of_absorb_op hop)]
    exact exec_absorb_of_overflow (by exact not_not.1 hf) (by exact (countOverflows_iff _).2 hc) _
  · obtain ⟨i, rfl⟩ := exists_encode_of_legal (Bool.not_eq_false _ ▸ hlegal)
    rw [issue_of_decode (decode_encode i), decode_encode]

/-! Legal sequences. The number of message bytes so far is kept beside the state: the counter is 8 times that number. -/

@[simp] theorem lengthAfterWord_init (n : Nat) : lengthAfterWord n (encode .init) = 0 := by
  rw [lengthAfterWord, decode_encode]

@[simp] theorem lengthAfterWord_absorb (n : Nat) (b : Byte) : lengthAfterWord n (encode (.absorb b)) = n + 1 := by
  rw [lengthAfterWord, decode_encode]

@[simp] theorem lengthAfterWord_digest (n : Nat) : lengthAfterWord n (encode .digest) = n := by
  rw [lengthAfterWord, decode_encode]

@[simp] theorem lengthAfterWord_digesthex (n : Nat) : lengthAfterWord n (encode .digesthex) = n := by
  rw [lengthAfterWord, decode_encode]

/-- A command that keeps the message below `2^61` bytes raises no fault, and the counter follows the length. -/
theorem exec_of_short {s : State} {n : Nat} (hf : s.fault = .none) (hn : s.bitcnt.toNat = 8 * n) {i : Instr}
    (hlen : lengthAfterWord n (encode i) < 2 ^ 61) :
    ∃ t, exec i s = .next t ∧ t.fault = .none ∧ t.bitcnt.toNat = 8 * lengthAfterWord n (encode i) := by
  cases i with
  | init => exact ⟨_, exec_init_of_none hf, hf, by simp⟩
  | absorb b =>
    rw [lengthAfterWord_absorb] at hlen ⊢
    have hroom : s.bitcnt.toNat + 8 ≤ 2 ^ 64 - 1 := by omega
    refine ⟨_, exec_absorb_of_room hf (mt (countOverflows_iff _).1 (Nat.not_lt.2 hroom)) b, by simp [hf], ?_⟩
    rw [respond_nil, takeMessageByte_bitcnt, count_add_eight hroom, hn, Nat.mul_succ]
  | digest => exact ⟨_, exec_digest_of_none hf, hf, by rwa [lengthAfterWord_digest]⟩
  | digesthex => exact ⟨_, exec_digesthex_of_none hf, hf, by rwa [lengthAfterWord_digesthex]⟩

/-- `exec_of_short` for the whole transaction of a legal word. -/
theorem transact_of_short {s : State} {n : Nat} (hf : s.fault = .none) (hn : s.bitcnt.toNat = 8 * n) {w : CmdWord}
    (hw : CmdWord.legal w = true) (hlen : lengthAfterWord n w < 2 ^ 61) :
    ∃ t, transact w s = .next t ∧ t.fault = .none ∧ t.bitcnt.toNat = 8 * lengthAfterWord n w := by
  obtain ⟨i, rfl⟩ := exists_encode_of_legal hw
  obtain ⟨u, hu, huf, hun⟩ := exec_of_short hf hn hlen
  exact ⟨u.drain, transact_of_issue ((issue_of_decode (decode_encode i) s).trans hu), by rwa [drain_fault],
    by rwa [drain_bitcnt]⟩

/-- Legal words behind `n` message bytes, by induction on the words. -/
theorem runWords_of_short {s : State} {n : Nat} (hf : s.fault = .none) (hn : s.bitcnt.toNat = 8 * n)
    {ws : List CmdWord} (hws : ∀ w ∈ ws, CmdWord.legal w = true)
    (hlen : ∀ k ≤ ws.length, messageLength n (ws.take k) < 2 ^ 61) :
    ∃ t, runWords ws s = .next t ∧ t.fault = .none := by
  induction ws generalizing s n with
  | nil => exact ⟨s, rfl, hf⟩
  | cons w ws ih =>
    obtain ⟨hw, hws⟩ := List.forall_mem_cons.1 hws
    have hfirst : lengthAfterWord n w < 2 ^ 61 := hlen 1 (by simp)
    have hrest : ∀ k ≤ ws.length, messageLength (lengthAfterWord n w) (ws.take k) < 2 ^ 61 := fun k hk =>
      hlen (k + 1) (Nat.succ_le_succ hk)
    obtain ⟨u, hu, huf, hun⟩ := transact_of_short hf hn hw hfirst
    rw [runWords, hu, andThen_next]
    exact ih huf hun hws hrest

/-- Settles O38: under the invariant of 10_state.md R14 the counter is 8 times the number of message bytes. -/
theorem legalCommandsRaiseNoFault : Obligations.LegalCommandsRaiseNoFault := by
  intro s ws hf hs hws hlen
  obtain ⟨h8, -⟩ := (arch_inv_iff s).1 hs
  exact runWords_of_short hf (by omega) hws hlen

end Sys2Proof.Machine
end

section
/-! The family of 70_reset_and_hazards.md: reset beside everything else (R160, R162), reset beside INIT (R161), and the
idle engine (R170). -/

namespace Sys2Proof.Machine

/-! Reset. -/

/-- Reset keeps of a state only the record of responses and the host's samples (70_reset_and_hazards.md R160). -/
theorem hardReset_eq_reset (s : State) :
    s.hardReset = { State.reset with responses := s.responses, inputs := s.inputs } := rfl

/-- `cmd_ready` is low while `rst` is high (70_reset_and_hazards.md R160). -/
@[simp] theorem cmdReady_of_rst (s : State) : s.cmdReady true = false := rfl

/-- Settles O41. -/
theorem resetOverridesEverything : Obligations.ResetOverridesEverything := by
  intro s p rest hi hr
  exact ⟨by rw [step_of_reset hi hr, hardReset_eq_reset], cmdReady_of_rst s⟩

/-- Settles O42: an unfaulted INIT loads the values of reset, and a faulted engine ignores INIT. -/
theorem resetAndInitDifferOnlyInTheFault : Obligations.ResetAndInitDifferOnlyInTheFault := by
  refine ⟨fun s t hf h => ?_, fun s t hf h => ?_⟩
  · cases (exec_init_of_none hf).symm.trans h
    exact (arch_eq_iff _ _).2 ⟨rfl, rfl, rfl, hf⟩
  · cases (exec_of_fault hf .init).symm.trans h
    exact ⟨rfl, hardReset_fault s, hf⟩

/-! The idle engine. -/

/-- A step with nothing more driven keeps the state (log 3). -/
theorem step_of_nil {s : State} (hi : s.inputs = []) : step s = .next s := by
  have hd : s.dropInput = s := by cases s; cases hi; rfl
  have ha : s.portAction = .idle := by rw [State.portAction, hi]
  rw [step, clockPorts, ha, hd]

/-- A step whose sample presents nothing, with `rst` low and no response pending, only uses the sample (log 3). -/
theorem step_of_idle {s : State} {p : HostInput} {rest : List HostInput}
    (hi : s.inputs = p :: rest) (hr : p.rst = false) (hp : p.cmd = none) (hl : s.rspLeft = []) :
    step s = .next { s with inputs := rest } := by
  have hd : s.dropInput = { s with inputs := rest } := by simp [State.dropInput, hi]
  have ha : s.portAction = .idle := by rw [portAction_cons hi, hr, hp, hl]; rfl
  rw [step, clockPorts, ha, ← hd]

/-- Settles O46. -/
theorem idleEngineKeepsItsState : Obligations.IdleEngineKeepsItsState :=
  ⟨fun _ => step_of_nil, fun _ _ _ => step_of_idle⟩

end Sys2Proof.Machine
end
